-- ==== Sys2Proof/Word.lean ====
section
/-! DEFINITION. The bit vectors the spec names (00_scope.md R7): bytes, 16-bit and 32-bit
values, the 40-bit command word (R60) and the 36-bit response word (R72). -/

namespace Sys2Proof

/-- A byte is 8 bits (R7). -/
abbrev Byte := BitVec 8

/-- A 16-bit value: CRC, LEN, a CRC trailer. -/
abbrev Word16 := BitVec 16

/-- A 32-bit value: the argument of a command, the data of a response, a float's pattern. -/
abbrev Word32 := BitVec 32

/-- A command word, `cmd[39:0]` (R60). -/
abbrev CommandWord := BitVec 40

/-- A response word, `rsp[35:0]` (R72). -/
abbrev ResponseWord := BitVec 36

end Sys2Proof
end

