-- ==== Sys2Proof/Syntax.lean ====
section
/-! DEFINITION. The twelve commands as syntax (30_encoding.md R64), their mnemonics and
formats (R62), the aliases (R70), and the written form of a command (R69). -/

namespace Sys2Proof

/-- The four status registers (10_state.md R27): SR0 to SR3. -/
inductive StatusReg where
  | crc     -- SR0, R28
  | len     -- SR1, R29
  | status  -- SR2, R30
  | cap     -- SR3, R31
  deriving DecidableEq, Repr

/-- The commands. An operand is exactly the bits its format gives it (R62, R63): no term of this
type has an operand out of its range. `putI8` stands for both rows of PUT.I8 (log entry 5). -/
inductive Instr where
  | crcInit
  | crcUpd (imm8 : Byte)
  | putU8 (imm8 : Byte)
  | putI8 (simm8 : Byte)
  | putF32 (imm32 : Word32)
  | putCrc
  | getU8 (off16 : Word16)
  | getI8 (off16 : Word16)
  | getF32 (off16 : Word16)
  | chk (off16 : Word16)
  | clr
  | rdSr (srn : StatusReg)
  deriving DecidableEq, Repr

/-- The twelve mnemonics (R64). -/
inductive Mnemonic where
  | crcInit | crcUpd
  | putU8 | putI8 | putF32 | putCrc
  | getU8 | getI8 | getF32 | chk
  | clr | rdSr
  deriving DecidableEq, Repr

/-- All mnemonics, in the order of the opcode map (R64). -/
def Mnemonic.all : List Mnemonic :=
  [.crcInit, .crcUpd, .putU8, .putI8, .putF32, .putCrc,
   .getU8, .getI8, .getF32, .chk, .clr, .rdSr]

/-- The six formats (R62): none, unsigned byte, signed byte, 32-bit pattern, offset, register. -/
inductive Format where
  | N | B | S | W | O | R
  deriving DecidableEq, Repr

/-- The format column of the opcode map (R64). -/
def Mnemonic.format : Mnemonic → Format
  | .crcInit => .N
  | .crcUpd => .B
  | .putU8 => .B
  | .putI8 => .S
  | .putF32 => .W
  | .putCrc => .N
  | .getU8 => .O
  | .getI8 => .O
  | .getF32 => .O
  | .chk => .O
  | .clr => .N
  | .rdSr => .R

/-- The mnemonic of a command. -/
def Instr.mnemonic : Instr → Mnemonic
  | .crcInit => .crcInit
  | .crcUpd _ => .crcUpd
  | .putU8 _ => .putU8
  | .putI8 _ => .putI8
  | .putF32 _ => .putF32
  | .putCrc => .putCrc
  | .getU8 _ => .getU8
  | .getI8 _ => .getI8
  | .getF32 _ => .getF32
  | .chk _ => .chk
  | .clr => .clr
  | .rdSr _ => .rdSr

/-! The aliases of R70: each expands to exactly one command. -/

abbrev Instr.crcRd : Instr := .rdSr .crc
abbrev Instr.lenRd : Instr := .rdSr .len
abbrev Instr.statusRd : Instr := .rdSr .status
abbrev Instr.capRd : Instr := .rdSr .cap
abbrev Instr.load (imm8 : Byte) : Instr := .putU8 imm8

/-- What may stand in the mnemonic column of a source line: a mnemonic, or an alias of R70. -/
inductive AsmName where
  | core (m : Mnemonic)
  | crcRd | lenRd | statusRd | capRd
  | load
  deriving DecidableEq, Repr

/-- One line of the written form (R69): a name, then at most one operand, read as an integer. -/
structure SourceLine where
  name : AsmName
  operand : Option Int
  deriving DecidableEq, Repr

/-- The format the operand of a line is checked against: the aliases of `RD.SR` take none, `LOAD`
takes the byte of `PUT.U8` (R70). -/
def AsmName.format : AsmName → Format
  | .core m => m.format
  | .crcRd => .N
  | .lenRd => .N
  | .statusRd => .N
  | .capRd => .N
  | .load => .B

/-- The number of a status register (R27). -/
def StatusReg.number : StatusReg → Nat
  | .crc => 0
  | .len => 1
  | .status => 2
  | .cap => 3

/-- A command as a source line, its operand read as R63 reads it: `imm8`, `imm32`, `off16` and `srn`
unsigned, `simm8` signed. -/
def Instr.line : Instr → SourceLine
  | .crcInit => ⟨.core .crcInit, none⟩
  | .crcUpd b => ⟨.core .crcUpd, some b.toNat⟩
  | .putU8 b => ⟨.core .putU8, some b.toNat⟩
  | .putI8 b => ⟨.core .putI8, some b.toInt⟩
  | .putF32 p => ⟨.core .putF32, some p.toNat⟩
  | .putCrc => ⟨.core .putCrc, none⟩
  | .getU8 o => ⟨.core .getU8, some o.toNat⟩
  | .getI8 o => ⟨.core .getI8, some o.toNat⟩
  | .getF32 o => ⟨.core .getF32, some o.toNat⟩
  | .chk k => ⟨.core .chk, some k.toNat⟩
  | .clr => ⟨.core .clr, none⟩
  | .rdSr r => ⟨.core .rdSr, some r.number⟩

end Sys2Proof
end

