-- ==== Sys2Proof/WellFormed.lean ====
section
/-! DEFINITION. When a written command is well formed (30_encoding.md R69): it has an operand
exactly when its format has one, and the operand is in the range R63 gives. "An operand out of its
range is an assembler error, not an illegal command." A term of Instr holds only operands in range,
and `Instr.wellFormed` says so of its written form. -/

namespace Sys2Proof

/-- The range R63 gives an operand of each format, lowest and highest value; none where the format
takes no operand. -/
def Format.range : Format → Option (Int × Int)
  | .N => none
  | .B => some (0, 255)
  | .S => some (-128, 127)
  | .W => some (0, 4294967295)
  | .O => some (0, 65535)
  | .R => some (0, 3)

/-- An operand, or its absence, is what the format asks for (R62, R63, R69). -/
def Format.accepts (f : Format) (operand : Option Int) : Bool :=
  match f.range, operand with
  | none, none => true
  | none, some _ => false
  | some _, none => false
  | some (lo, hi), some v => decide (lo ≤ v ∧ v ≤ hi)

/-- A source line the assembler takes (R69). -/
def SourceLine.wellFormed (l : SourceLine) : Bool :=
  l.name.format.accepts l.operand

/-- The written form of a command is one the assembler takes. -/
def Instr.wellFormed (i : Instr) : Bool :=
  i.line.wellFormed

end Sys2Proof
end

