-- ==== Sys2Proof/Decode.lean ====
section
/-! DEFINITION. Decoding and encoding of command words (30_encoding.md R60 to R68), and the opcode map
of R64 as a table. Decoding depends on the word alone (R65). -/

namespace Sys2Proof

/-- The opcode field, bits 39:32 (R60). -/
def cmdOp (w : CommandWord) : BitVec 8 := w.extractLsb' 32 8

/-- The argument field, bits 31:0 (R60). -/
def cmdArg (w : CommandWord) : Word32 := w.extractLsb' 0 32

/-- The `op` column of the opcode map (R64). -/
def Mnemonic.op : Mnemonic → BitVec 8
  | .crcInit => 0x10
  | .crcUpd => 0x11
  | .putU8 => 0x20
  | .putI8 => 0x21
  | .putF32 => 0x22
  | .putCrc => 0x23
  | .getU8 => 0x30
  | .getI8 => 0x31
  | .getF32 => 0x32
  | .chk => 0x33
  | .clr => 0x40
  | .rdSr => 0x41

/-- The requirement column of R62: what the bits of the argument outside the operand must be. -/
def Format.admits (f : Format) (arg : Word32) : Bool :=
  match f with
  | .N => arg == 0
  | .B => arg.extractLsb' 8 24 == 0
  | .S => arg == (arg.extractLsb' 0 8).signExtend 32
  | .W => true
  | .O => arg.extractLsb' 16 16 == 0
  | .R => arg.extractLsb' 2 30 == 0

/-- The status register a 2-bit number names (R27, R63). -/
def statusRegOf (srn : BitVec 2) : StatusReg :=
  if srn = 0 then .crc else if srn = 1 then .len else if srn = 2 then .status else .cap

/-- The 2-bit number of a status register (R27). -/
def StatusReg.bits : StatusReg → BitVec 2
  | .crc => 0
  | .len => 1
  | .status => 2
  | .cap => 3

/-- Operand assembly (R63): the command of a mnemonic with the operand its argument holds. -/
def Mnemonic.withArg (m : Mnemonic) (arg : Word32) : Instr :=
  match m with
  | .crcInit => .crcInit
  | .crcUpd => .crcUpd (arg.extractLsb' 0 8)
  | .putU8 => .putU8 (arg.extractLsb' 0 8)
  | .putI8 => .putI8 (arg.extractLsb' 0 8)
  | .putF32 => .putF32 arg
  | .putCrc => .putCrc
  | .getU8 => .getU8 (arg.extractLsb' 0 16)
  | .getI8 => .getI8 (arg.extractLsb' 0 16)
  | .getF32 => .getF32 (arg.extractLsb' 0 16)
  | .chk => .chk (arg.extractLsb' 0 16)
  | .clr => .clr
  | .rdSr => .rdSr (statusRegOf (arg.extractLsb' 0 2))

/-- Why a word is illegal (R66): its opcode is none of the twelve, or its argument breaks the
requirement of its opcode's format. -/
inductive Illegal where
  | opcode (op : BitVec 8)
  | argument (m : Mnemonic) (arg : Word32)
  deriving DecidableEq, Repr

/-- The mnemonic an opcode names, if any (R64). -/
def mnemonicOf (op : BitVec 8) : Option Mnemonic :=
  Mnemonic.all.find? (fun m => m.op == op)

/-- Decoding (R65, R66): every word is one command or illegal for one reason. -/
def decode (w : CommandWord) : Except Illegal Instr :=
  match mnemonicOf (cmdOp w) with
  | none => .error (.opcode (cmdOp w))
  | some m =>
    if m.format.admits (cmdArg w) then .ok (m.withArg (cmdArg w))
    else .error (.argument m (cmdArg w))

/-- The argument word of a command (R62): the operand, and every other bit as the format requires. -/
def Instr.arg : Instr → Word32
  | .crcInit => 0
  | .crcUpd b => b.zeroExtend 32
  | .putU8 b => b.zeroExtend 32
  | .putI8 b => b.signExtend 32
  | .putF32 p => p
  | .putCrc => 0
  | .getU8 o => o.zeroExtend 32
  | .getI8 o => o.zeroExtend 32
  | .getF32 o => o.zeroExtend 32
  | .chk k => k.zeroExtend 32
  | .clr => 0
  | .rdSr r => r.bits.zeroExtend 32

/-- Encoding (R60): the opcode above the argument. -/
def encode (i : Instr) : CommandWord := i.mnemonic.op ++ i.arg

/-- One row of the opcode map (R64). -/
structure Row where
  mnemonic : Mnemonic
  format : Format
  bits : CommandWord
  mask : CommandWord
  deriving DecidableEq, Repr

/-- The opcode map (R64), its 13 rows in order, with the `match` and `mask` columns as printed. -/
def opcodeMap : List Row :=
  [⟨.crcInit, .N, 0x1000000000, 0xFFFFFFFFFF⟩,
   ⟨.crcUpd, .B, 0x1100000000, 0xFFFFFFFF00⟩,
   ⟨.putU8, .B, 0x2000000000, 0xFFFFFFFF00⟩,
   ⟨.putI8, .S, 0x2100000000, 0xFFFFFFFF80⟩,
   ⟨.putI8, .S, 0x21FFFFFF80, 0xFFFFFFFF80⟩,
   ⟨.putF32, .W, 0x2200000000, 0xFF00000000⟩,
   ⟨.putCrc, .N, 0x2300000000, 0xFFFFFFFFFF⟩,
   ⟨.getU8, .O, 0x3000000000, 0xFFFFFF0000⟩,
   ⟨.getI8, .O, 0x3100000000, 0xFFFFFF0000⟩,
   ⟨.getF32, .O, 0x3200000000, 0xFFFFFF0000⟩,
   ⟨.chk, .O, 0x3300000000, 0xFFFFFF0000⟩,
   ⟨.clr, .N, 0x4000000000, 0xFFFFFFFFFF⟩,
   ⟨.rdSr, .R, 0x4100000000, 0xFFFFFFFFFC⟩]

/-- A word is the command of a row when `(w & mask) = match` (R64, R65). -/
def Row.covers (r : Row) (w : CommandWord) : Bool := w &&& r.mask == r.bits

/-- The command word whose low `nbits` bits are those of `w` and whose other bits are 0, numbered as
R60 numbers them (bit 0 least significant), which is how opcode_table.json numbers a row's bits
(log entry 7). -/
def tableWord (nbits w : Nat) : CommandWord := BitVec.ofNat 40 (w % 2 ^ nbits)

/-- The command the decoder reads from a row's word; none where it refuses. -/
def decodeTableWord (nbits w : Nat) : Option Instr :=
  (decode (tableWord nbits w)).toOption

end Sys2Proof
end

