-- ==== Sys2Proof/Config.lean ====
section
/-! DEFINITION. The one implementation parameter the model represents, `BUF_SIZE`
(00_scope.md R6, 92_eei_decisions.md D11). `LAT` is not represented (R222). -/

namespace Sys2Proof

/-- How many bytes `BUF_SIZE` exceeds its lower bound 36 by: any number from 0 to 65499, and
nothing in Lean can tell which (log entry 2). -/
opaque Config.bufSizeAbove36 : Fin 65500

/-- `BUF_SIZE`, the capacity of BUF in bytes: 36 to 65535 (R6). -/
def Config.bufSize : Nat := Config.bufSizeAbove36.val + 36

end Sys2Proof
end

