-- ==== Sys2Proof/Machine/State.lean ====
section
/-! DEFINITION. The block's state (10_state.md R20 to R33), what the host does to it (R218), the
response it gives (30_encoding.md R72), and the state after reset (70_reset_and_hazards.md R211). -/

namespace Sys2Proof.Machine

/-- The error codes (60_exceptions.md R190). The fourth 2-bit code is never produced. -/
inductive ErrorCode where
  | noError
  | wrongCrc
  | wrongDataSize
  deriving DecidableEq, Repr

/-- The fault codes of a response (60_exceptions.md R192). The fourth 2-bit code is never produced. A
fault code is part of an ordinary response: the block goes on. -/
inductive FaultCode where
  | none
  | ill
  | ovf
  deriving DecidableEq, Repr

/-- A response, by its three fields (R72). -/
structure Response where
  data : Word32
  err : ErrorCode
  fault : FaultCode
  deriving DecidableEq, Repr

/-- What the host may do to the block at transaction level (R218): present a command word; assert
reset between commands (R210); assert reset after a command's acceptance and before the delivery of
its response (R213). -/
inductive HostEvent where
  | command (w : CommandWord)
  | reset
  | resetDuring (w : CommandWord)
  deriving DecidableEq, Repr

/-- The frame buffer: the bytes that hold a value, in order of offset, so that entry `i` is the byte
at offset `i` and the length is LEN (R23, R24, R33; log entry 1). A byte at any other offset holds no
value. -/
abbrev Memory := List Byte

/-- Why the machine could stop with a fault: for no reason at all. "no command hangs, blocks, waits
for another agent, or leaves the block stuck" (R199); every abnormal outcome is a field of an ordinary
response (R196). -/
inductive Fault
  deriving DecidableEq, Repr

/-- Why a step could be refused. -/
inductive Refusal where
  /-- Raised by an arm of `exec` whose command had no meaning yet; no arm raises it. Safe. -/
  | notModelled (mnemonic : String)
  deriving DecidableEq, Repr

/-- The state (R33), and the model's own two fields for the step's input and output. LEN and
SR0 to SR3 are computed from it (Machine/Flags.lean). -/
structure State where
  /-- CRC: the running value of the checksum engine (R22). -/
  crc : Word16
  /-- BUF[0 .. LEN-1] (R23), and with it LEN (R24). -/
  buf : Memory
  /-- ILL: sticky, an illegal word was given (R25). -/
  ill : Bool
  /-- OVF: sticky, a PUT would have written past BUF_SIZE (R26). -/
  ovf : Bool
  /-- The model's own: what the host will do next, first event first (log entry 3). -/
  pending : List HostEvent
  /-- The model's own: the responses the host has been given, oldest first (log entry 4). -/
  responses : List Response
  deriving DecidableEq, Repr

/-- The reset state (R211, R212): CRC = 0xFFFF, LEN = 0 and so no byte of BUF with a value, ILL = 0,
OVF = 0. The host has nothing pending and has been given nothing. -/
def State.reset : State :=
  ⟨0xFFFF, [], false, false, [], []⟩

end Sys2Proof.Machine
end

