-- ==== Sys2Proof/Machine/Operands.lean ====
section
/-! DEFINITION. What each operand form is to a command, and the typed fields of the codec: the pack
functions (41_pack.md R110 to R112), the unpack functions (42_unpack.md R130 to R132), big-endian
16-bit values (20_memory.md R42 to R44), and the response word (30_encoding.md R72). -/

namespace Sys2Proof.Machine

/-- `off16` of a GET, as an offset: `u(off16)`, never scaled (R63). -/
def offset (off16 : Word16) : Nat := off16.toNat

/-- `off16` of CHK, as a byte count: `u(off16)` (R63, R138). -/
def count (off16 : Word16) : Nat := off16.toNat

/-- `pack_u8(v)` (R110). -/
def packU8 (v : Byte) : List Byte := [v]

/-- `pack_i8(v)` (R111): the two's-complement byte of a signed 8-bit value. -/
def packI8 (v : Byte) : List Byte := [v]

/-- `pack_f32(p)` (R112): most significant byte first; the pattern is not interpreted. -/
def packF32 (p : Word32) : List Byte :=
  [p.extractLsb' 24 8, p.extractLsb' 16 8, p.extractLsb' 8 8, p.extractLsb' 0 8]

/-- The two bytes of a CRC trailer, more significant first (R42, R44, R118). -/
def pack16 (c : Word16) : List Byte :=
  [c.extractLsb' 8 8, c.extractLsb' 0 8]

/-- `unpack_u8` (R130), on one byte. -/
def unpackU8 : List Byte → Option Byte
  | [b] => some b
  | _ => none

/-- `unpack_i8` (R131), on one byte: the same bits, whose value is `s(b)`. -/
def unpackI8 : List Byte → Option Byte
  | [b] => some b
  | _ => none

/-- `unpack_f32` (R132), on four bytes: the first is the most significant. -/
def unpackF32 : List Byte → Option Word32
  | [b0, b1, b2, b3] => some (b0 ++ b1 ++ b2 ++ b3)
  | _ => none

/-- A 16-bit big-endian value, on two bytes (R43, n = 2). -/
def unpack16 : List Byte → Option Word16
  | [b0, b1] => some (b0 ++ b1)
  | _ => none

/-- An unsigned byte in a response's data: `zext_32(v)` (R135). -/
def dataU8 (v : Byte) : Word32 := v.zeroExtend 32

/-- A signed byte in a response's data: `sext_32(v)` (R136). -/
def dataI8 (v : Byte) : Word32 := v.signExtend 32

/-- A 16-bit value in a response's data: `zext_32(v)` (R28, R29, R118). -/
def data16 (v : Word16) : Word32 := v.zeroExtend 32

/-- The 2-bit code of an error (R190). -/
def ErrorCode.code : ErrorCode → BitVec 2
  | .noError => 0
  | .wrongCrc => 1
  | .wrongDataSize => 2

/-- The 2-bit code of a fault (R192). -/
def FaultCode.code : FaultCode → BitVec 2
  | .none => 0
  | .ill => 1
  | .ovf => 2

/-- The response word: `{fault, err, data}`, bits 35:34, 33:32 and 31:0 (R72). -/
def Response.word (r : Response) : ResponseWord :=
  r.fault.code ++ r.err.code ++ r.data

/-- The error a 2-bit code names; 3 is no member of the enumeration (R190). -/
def ErrorCode.ofCode (c : BitVec 2) : Option ErrorCode :=
  if c = 0 then some .noError else if c = 1 then some .wrongCrc
  else if c = 2 then some .wrongDataSize else none

/-- The fault a 2-bit code names; 3 is never produced (R192). -/
def FaultCode.ofCode (c : BitVec 2) : Option FaultCode :=
  if c = 0 then some .none else if c = 1 then some .ill
  else if c = 2 then some .ovf else none

/-- What a host reads in a response word (R72); none for a word no block gives. -/
def Response.ofWord (w : ResponseWord) : Option Response :=
  match ErrorCode.ofCode (w.extractLsb' 32 2), FaultCode.ofCode (w.extractLsb' 34 2) with
  | some e, some f => some ⟨w.extractLsb' 0 32, e, f⟩
  | _, _ => none

end Sys2Proof.Machine
end

