-- ==== Sys2Proof/Machine/Flags.lean ====
section
/-! DEFINITION. LEN (10_state.md R24), the sticky flags (R25, R26) and the status registers made of the
state (R27 to R31). No command clears a flag (60_exceptions.md R195). -/

namespace Sys2Proof.Machine

/-- LEN: the number of bytes of BUF that hold a value, a 16-bit register (R24). -/
def State.len (s : State) : Word16 := BitVec.ofNat 16 s.buf.length

/-- `ILL <- 1` (R193). -/
def State.setIll (s : State) : State := { s with ill := true }

/-- `OVF <- 1` (R194). -/
def State.setOvf (s : State) : State := { s with ovf := true }

/-- `{OVF, ILL}`: bit 1 OVF, bit 0 ILL (R30). -/
def State.flags (s : State) : BitVec 2 := BitVec.ofBool s.ovf ++ BitVec.ofBool s.ill

/-- `SR[n]`, the value `RD.SR n` returns (R28 to R31, R151). -/
def statusReg (s : State) : StatusReg → Word32
  | .crc => data16 s.crc
  | .len => data16 s.len
  | .status => s.flags.zeroExtend 32
  | .cap => BitVec.ofNat 32 Config.bufSize

end Sys2Proof.Machine
end

