-- ==== Sys2Proof/Machine/Ops.lean ====
section
/-! DEFINITION. The operations the commands share: the checksum functions (40_crc.md R90 to R92), reads
and writes of BUF (20_memory.md R43, R44), the append step (41_pack.md R114), the fetch step
(42_unpack.md R134), responding (R72), and the illegal-word fault (60_exceptions.md R193). -/

namespace Sys2Proof.Machine

/-- The initial value of a computation (R92, R94). -/
def crcInitial : Word16 := 0xFFFF

/-- `crc_round(r)` (R90): shift left by one in 17 bits, exclusive-or the polynomial 0x1021 when the
top bit was 1, mask to 16 bits. -/
def crcRound (r : Word16) : Word16 :=
  if r.getLsbD 15 then (((r.zeroExtend 17) <<< 1) ^^^ 0x1021#17).truncate 16
  else ((r.zeroExtend 17) <<< 1).truncate 16

/-- `k` rounds in a row. -/
def crcRounds : Nat → Word16 → Word16
  | 0, r => r
  | k + 1, r => crcRounds k (crcRound r)

/-- `crc_byte(r, b)` (R91): the byte into the high byte of the register, then eight rounds. -/
def crcByte (r : Word16) (b : Byte) : Word16 :=
  crcRounds 8 (r ^^^ (b ++ 0x00#8))

/-- `crc16(m)` (R92): no final exclusive-or. -/
def crc16 (m : List Byte) : Word16 := m.foldl crcByte crcInitial

/-- The form of BUF as data: it lies within the address space, `LEN <= BUF_SIZE` (R24, R40, R41). The
offsets of the bytes are their places in the list, so they rise strictly and none repeats. -/
def Memory.wf (m : Memory) : Bool := decide (m.length ≤ Config.bufSize)

/-- BUF as pairs of address and byte, in rising order of address, from address `a` on. -/
def Memory.cellsFrom : Nat → Memory → List Host.Cell
  | _, [] => []
  | a, b :: m => (a, b) :: Memory.cellsFrom (a + 1) m

/-- BUF as pairs of address and byte (R40). -/
def Memory.cells (m : Memory) : List Host.Cell := Memory.cellsFrom 0 m

/-- The byte at an offset; none where the byte holds no value (R23). -/
def Memory.byte (m : Memory) (off : Nat) : Option Byte := m[off]?

/-- The `n` bytes from `off` on, admitted only when `off + n <= LEN` (R41, R134). The sum does not
wrap. -/
def Memory.read (m : Memory) (off n : Nat) : Option (List Byte) :=
  if off + n ≤ m.length then some ((m.drop off).take n) else none

/-- `MemWrite` (R44) of the bytes `bs` at `off`, for an `off` of at most LEN; LEN is raised to at least
the end of what is written. -/
def Memory.write (m : Memory) (off : Nat) (bs : List Byte) : Memory :=
  m.take off ++ bs ++ m.drop (off + bs.length)

/-- The host has one response more. -/
def State.answer (s : State) (r : Response) : State :=
  { s with responses := s.responses ++ [r] }

/-- `respond(data, err, fault)` (R72): the command ends here, with exactly one response. -/
def respond (data : Word32) (err : ErrorCode) (fault : FaultCode) (s : State) :
    Host.Outcome State Fault Refusal :=
  .next (s.answer ⟨data, err, fault⟩)

/-- A PUT that does not fit (R194): OVF is set, the response says so, nothing else changes. -/
def overflow (s : State) : Host.Outcome State Fault Refusal :=
  respond 0 .noError .ovf s.setOvf

/-- The offset an append writes at: always the current LEN (R114). -/
def appendOffset (s : State) : Nat := s.buf.length

/-- `append(n, v)` (R114) for a buffer of capacity `cap`, `bs` being the bytes of `v`: the whole field,
then the rest of the command, or `overflow` and the command ends. -/
def append (cap : Nat) (bs : List Byte) (s : State)
    (done : State → Host.Outcome State Fault Refusal) : Host.Outcome State Fault Refusal :=
  if cap < appendOffset s + bs.length then overflow s
  else done { s with buf := Memory.write s.buf (appendOffset s) bs }

/-- A PUT with no value to return: append, then `respond(0, NoError, none)` (R115 to R117). -/
def put (cap : Nat) (bs : List Byte) (s : State) : Host.Outcome State Fault Refusal :=
  append cap bs s (respond 0 .noError .none)

/-- The end of a GET (R134, R140): the field's value, or WrongDataSize with data 0. No state changes. -/
def respondField (field : Option Word32) (s : State) : Host.Outcome State Fault Refusal :=
  match field with
  | some v => respond v .noError .none s
  | none => respond 0 .wrongDataSize .none s

/-- An illegal word (R193): ILL is set, the response says so, nothing else changes. -/
def illegal (s : State) : Host.Outcome State Fault Refusal :=
  respond 0 .noError .ill s.setIll

/-- Reset (R210, R211): the state after reset, whatever came before. What the host still means to do
and the responses it already has are the host's. -/
def resetBlock (s : State) : State :=
  { State.reset with pending := s.pending, responses := s.responses }

end Sys2Proof.Machine
end

