-- ==== Sys2Proof/Machine/Control.lean ====
section
/-! DEFINITION. The control family: CLR and RD.SR (43_control.md R150, R151). -/

namespace Sys2Proof.Machine

/-- CLR (R150): LEN <- 0, so that no byte of BUF holds a value. -/
def execClr (s : State) : Host.Outcome State Fault Refusal :=
  respond 0 .noError .none { s with buf := [] }

/-- RD.SR srn (R151). -/
def execRdSr (srn : StatusReg) (s : State) : Host.Outcome State Fault Refusal :=
  respond (statusReg s srn) .noError .none s

end Sys2Proof.Machine
end

