-- ==== Sys2Proof/Machine/Crc.lean ====
section
/-! DEFINITION. The CRC family: CRC.INIT and CRC.UPD (40_crc.md R94, R95). -/

namespace Sys2Proof.Machine

/-- CRC.INIT (R94). -/
def execCrcInit (s : State) : Host.Outcome State Fault Refusal :=
  respond 0 .noError .none { s with crc := crcInitial }

/-- CRC.UPD imm8 (R95). -/
def execCrcUpd (imm8 : Byte) (s : State) : Host.Outcome State Fault Refusal :=
  respond 0 .noError .none { s with crc := crcByte s.crc imm8 }

end Sys2Proof.Machine
end

