-- ==== Sys2Proof/Machine/Pack.lean ====
section
/-! DEFINITION. The pack family: PUT.U8, PUT.I8, PUT.F32 and PUT.CRC (41_pack.md R115 to R118). -/

namespace Sys2Proof.Machine

/-- PUT.U8 imm8 (R115). -/
def execPutU8 (imm8 : Byte) (s : State) : Host.Outcome State Fault Refusal :=
  put Config.bufSize (packU8 imm8) s

/-- PUT.I8 simm8 (R116). -/
def execPutI8 (simm8 : Byte) (s : State) : Host.Outcome State Fault Refusal :=
  put Config.bufSize (packI8 simm8) s

/-- PUT.F32 imm32 (R117). -/
def execPutF32 (imm32 : Word32) (s : State) : Host.Outcome State Fault Refusal :=
  put Config.bufSize (packF32 imm32) s

/-- PUT.CRC for a buffer of capacity `cap` (R118): the CRC of the whole buffer, from 0xFFFF whatever
CRC held, appended more significant byte first, left in CRC and returned. -/
def putCrc (cap : Nat) (s : State) : Host.Outcome State Fault Refusal :=
  append cap (pack16 (crc16 s.buf)) s fun t =>
    respond (data16 (crc16 s.buf)) .noError .none { t with crc := crc16 s.buf }

/-- PUT.CRC (R118). -/
def execPutCrc (s : State) : Host.Outcome State Fault Refusal :=
  putCrc Config.bufSize s

end Sys2Proof.Machine
end

