-- ==== Sys2Proof/Machine/Unpack.lean ====
section
/-! DEFINITION. The unpack family: GET.U8, GET.I8, GET.F32 and CHK (42_unpack.md R135 to R138). -/

namespace Sys2Proof.Machine

/-- GET.U8 off16 (R135). -/
def execGetU8 (off16 : Word16) (s : State) : Host.Outcome State Fault Refusal :=
  respondField (((Memory.read s.buf (offset off16) 1).bind unpackU8).map dataU8) s

/-- GET.I8 off16 (R136). -/
def execGetI8 (off16 : Word16) (s : State) : Host.Outcome State Fault Refusal :=
  respondField (((Memory.read s.buf (offset off16) 1).bind unpackI8).map dataI8) s

/-- GET.F32 off16 (R137). -/
def execGetF32 (off16 : Word16) (s : State) : Host.Outcome State Fault Refusal :=
  respondField ((Memory.read s.buf (offset off16) 4).bind unpackF32) s

/-- The bytes the trailer covers: all of the buffer except the last two (R138). -/
def covered (m : Memory) : List Byte := m.take (m.length - 2)

/-- The trailer: the last two bytes, the first of them more significant (R138). -/
def trailer (m : Memory) : Option Word16 := (Memory.read m (m.length - 2) 2).bind unpack16

/-- CHK off16 (R138): the length test first, then the CRC. -/
def execChk (off16 : Word16) (s : State) : Host.Outcome State Fault Refusal :=
  if s.buf.length < count off16 ∨ s.buf.length < 2 then respond 0 .wrongDataSize .none s
  else
    respond 0 (if trailer s.buf = some (crc16 (covered s.buf)) then .noError else .wrongCrc) .none
      { s with crc := crc16 (covered s.buf) }

end Sys2Proof.Machine
end

