-- ==== Sys2Proof/Machine/Dispatch.lean ====
section
/-! DEFINITION. The meaning of each command of the opcode map (30_encoding.md R64), one arm each. -/

namespace Sys2Proof.Machine

def exec (i : Instr) (s : State) : Host.Outcome State Fault Refusal :=
  match i with
  | .crcInit => Sys2Proof.Machine.execCrcInit s
  | .crcUpd imm8 => Sys2Proof.Machine.execCrcUpd imm8 s
  | .putU8 imm8 => Sys2Proof.Machine.execPutU8 imm8 s
  | .putI8 simm8 => Sys2Proof.Machine.execPutI8 simm8 s
  | .putF32 imm32 => Sys2Proof.Machine.execPutF32 imm32 s
  | .putCrc => Sys2Proof.Machine.execPutCrc s
  | .getU8 off16 => Sys2Proof.Machine.execGetU8 off16 s
  | .getI8 off16 => Sys2Proof.Machine.execGetI8 off16 s
  | .getF32 off16 => Sys2Proof.Machine.execGetF32 off16 s
  | .chk off16 => Sys2Proof.Machine.execChk off16 s
  | .clr => Sys2Proof.Machine.execClr s
  | .rdSr srn => Sys2Proof.Machine.execRdSr srn s

end Sys2Proof.Machine
end

