-- ==== Sys2Proof/Machine/Accept.lean ====
section
/-! DEFINITION. How the block takes what the host presents: a command word (30_encoding.md R61, R65,
R66) or a reset (70_reset_and_hazards.md R210, R213). -/

namespace Sys2Proof.Machine

/-- One command: decode, then the command's own effect, or the illegal-word fault (R61, R65, R66). -/
def runWord (w : CommandWord) (s : State) : Host.Outcome State Fault Refusal :=
  match decode w with
  | .ok i => exec i s
  | .error _ => illegal s

/-- One thing the host does. A reset during a command leaves exactly the reset state, with none of the
command's effects and no response (R213). -/
def handle (e : HostEvent) (s : State) : Host.Outcome State Fault Refusal :=
  match e with
  | .command w => runWord w s
  | .reset => .next (resetBlock s)
  | .resetDuring _ => .next (resetBlock s)

/-- The block takes the host's next event; with none pending it waits, unchanged (log entry 3). -/
def takeNext (s : State) : Host.Outcome State Fault Refusal :=
  match s.pending with
  | [] => .next s
  | e :: rest => handle e { s with pending := rest }

/-- The host presents this command word next (10_state.md R21). -/
def present (w : CommandWord) (s : State) : State :=
  { s with pending := .command w :: s.pending }

/-- The transaction of R61, `(state, cmd) -> (state', rsp)`: the next state and the response given. -/
def transact (w : CommandWord) (s : State) : Option (State × Response) :=
  match runWord w s with
  | .next t => t.responses.getLast?.map fun r => (t, r)
  | .fault _ => none
  | .refused _ => none

/-- What a list of host events, first first, leaves (R61, R220). -/
def runEvents : List HostEvent → State → Option State
  | [], s => some s
  | e :: es, s =>
    match handle e s with
    | .next t => runEvents es t
    | .fault _ => none
    | .refused _ => none

end Sys2Proof.Machine
end

