-- ==== Sys2Proof/Machine/Assembler.lean ====
section
/-! DEFINITION. The written form of a command (30_encoding.md R69) and the aliases (R70): text to a
source line, a source line to a command, and a command to its text. -/

namespace Sys2Proof.Machine

/-- The command of a name and the value of its operand, if it takes one (R63, R70). -/
def AsmName.command (n : AsmName) (v : Int) : Instr :=
  match n with
  | .core .crcInit => .crcInit
  | .core .crcUpd => .crcUpd (BitVec.ofInt 8 v)
  | .core .putU8 => .putU8 (BitVec.ofInt 8 v)
  | .core .putI8 => .putI8 (BitVec.ofInt 8 v)
  | .core .putF32 => .putF32 (BitVec.ofInt 32 v)
  | .core .putCrc => .putCrc
  | .core .getU8 => .getU8 (BitVec.ofInt 16 v)
  | .core .getI8 => .getI8 (BitVec.ofInt 16 v)
  | .core .getF32 => .getF32 (BitVec.ofInt 16 v)
  | .core .chk => .chk (BitVec.ofInt 16 v)
  | .core .clr => .clr
  | .core .rdSr => .rdSr (statusRegOf (BitVec.ofInt 2 v))
  | .crcRd => .crcRd
  | .lenRd => .lenRd
  | .statusRd => .statusRd
  | .capRd => .capRd
  | .load => .load (BitVec.ofInt 8 v)

/-- The assembler (R69): none is an assembler error, an operand missing, extra or out of its range. -/
def assemble (l : SourceLine) : Option Instr :=
  if l.wellFormed then some (AsmName.command l.name (l.operand.getD 0)) else none

/-- The spelling of a mnemonic (R64). -/
def Mnemonic.text : Mnemonic → String
  | .crcInit => "CRC.INIT"
  | .crcUpd => "CRC.UPD"
  | .putU8 => "PUT.U8"
  | .putI8 => "PUT.I8"
  | .putF32 => "PUT.F32"
  | .putCrc => "PUT.CRC"
  | .getU8 => "GET.U8"
  | .getI8 => "GET.I8"
  | .getF32 => "GET.F32"
  | .chk => "CHK"
  | .clr => "CLR"
  | .rdSr => "RD.SR"

/-- One hexadecimal digit. -/
def hexDigit (n : Nat) : Char := "0123456789ABCDEF".toList.getD n '0'

/-- The low `k` hexadecimal digits of a number, most significant first. -/
def hexDigits : Nat → Nat → List Char
  | 0, _ => []
  | k + 1, n => hexDigits k (n / 16) ++ [hexDigit (n % 16)]

/-- The encoding of a command as ten hexadecimal digits, `op` first (R69). -/
def encodingText (i : Instr) : String := String.ofList (hexDigits 10 (encode i).toNat)

/-- A number of at most `k + 1` decimal digits, with no leading zero. -/
def decimal : Nat → Nat → List Char
  | 0, n => [hexDigit (n % 10)]
  | k + 1, n => if n < 10 then [hexDigit n] else decimal k (n / 10) ++ [hexDigit (n % 10)]

/-- A signed number of at most five digits, in decimal. -/
def signedDecimal (v : Int) : List Char :=
  if v < 0 then '-' :: decimal 4 v.natAbs else decimal 4 v.natAbs

/-- An operand as it is written (R69): a pattern as `0x` and eight hexadecimal digits, every other
operand in decimal (the choice of decimal is the model's, log entry 14). -/
def Format.operandText (f : Format) (v : Int) : List Char :=
  match f with
  | .W => '0' :: 'x' :: hexDigits 8 v.natAbs
  | .N => signedDecimal v
  | .B => signedDecimal v
  | .S => signedDecimal v
  | .O => signedDecimal v
  | .R => signedDecimal v

/-- The letters of the written form of a command (R69): the mnemonic, then its operand if it has one. -/
def writtenLetters (i : Instr) : List Char :=
  match i.line.operand with
  | some v => (Mnemonic.text i.mnemonic).toList ++ ' ' :: Format.operandText i.mnemonic.format v
  | none => (Mnemonic.text i.mnemonic).toList

/-- The written form of a command (R69). -/
def written (i : Instr) : String := String.ofList (writtenLetters i)

/-- The spelling of a name (R64, R70). -/
def AsmName.text : AsmName → String
  | .core m => Mnemonic.text m
  | .crcRd => "CRC.RD"
  | .lenRd => "LEN.RD"
  | .statusRd => "STATUS.RD"
  | .capRd => "CAP.RD"
  | .load => "LOAD"

/-- Every name. -/
def AsmName.all : List AsmName :=
  Mnemonic.all.map AsmName.core ++ [.crcRd, .lenRd, .statusRd, .capRd, .load]

/-- The name a word spells. -/
def AsmName.ofText (cs : List Char) : Option AsmName :=
  AsmName.all.find? fun n => (AsmName.text n).toList == cs

/-- The value of a digit, in decimal or hexadecimal, in either case (log entry 14). -/
def digitValue (c : Char) : Option Nat :=
  match "0123456789ABCDEF".toList.findIdx? (· == c) with
  | some n => some n
  | none => "0123456789abcdef".toList.findIdx? (· == c)

/-- The number that digits continue from `acc` on, in a base. -/
def digitsFrom (base : Nat) : Nat → List Char → Option Nat
  | acc, [] => some acc
  | acc, c :: cs =>
    match digitValue c with
    | some d => if d < base then digitsFrom base (acc * base + d) cs else none
    | none => none

/-- The number that one or more digits spell. Leading zeros are taken, and nothing but digits is (the
model's choice, log entry 14). -/
def numberOf (base : Nat) (cs : List Char) : Option Int :=
  if cs.isEmpty then none else (digitsFrom base 0 cs).map Int.ofNat

/-- An unsigned decimal, or `0x` and hexadecimal digits (R69). -/
def unsignedOf (cs : List Char) : Option Int :=
  match cs with
  | '0' :: 'x' :: ds => numberOf 16 ds
  | ds => numberOf 10 ds

/-- A signed decimal (R69): `-` before the digits, or nothing; a `+` is refused and `-0` is 0 (the
model's choice, log entry 14). -/
def signedOf (cs : List Char) : Option Int :=
  match cs with
  | '-' :: ds => (numberOf 10 ds).map fun n => -n
  | ds => numberOf 10 ds

/-- `0x` and exactly eight hexadecimal digits (R69). -/
def patternOf (cs : List Char) : Option Int :=
  match cs with
  | '0' :: 'x' :: ds => if ds.length = 8 then numberOf 16 ds else none
  | _ => none

/-- An operand as R69 has it written, by its format. -/
def operandOf : Format → List Char → Option Int
  | .N, _ => none
  | .B, cs => unsignedOf cs
  | .S, cs => signedOf cs
  | .W, cs => patternOf cs
  | .O, cs => unsignedOf cs
  | .R, cs => unsignedOf cs

/-- The words of a line: what stands between its spaces, of which there may be several. A tab or a
carriage return is no space (the model's choice, log entry 14). `word` is the word begun, last letter
first. -/
def wordsFrom : List Char → List Char → List (List Char)
  | word, [] => if word.isEmpty then [] else [word.reverse]
  | word, c :: cs =>
    if c == ' ' then (if word.isEmpty then wordsFrom [] cs else word.reverse :: wordsFrom [] cs)
    else wordsFrom (c :: word) cs

/-- What a line of text stands for: nothing (it is empty or only a comment), a command, or an
assembler error. -/
inductive AsmLine where
  | blank
  | command (i : Instr)
  | error
  deriving DecidableEq, Repr

def AsmLine.ofOption : Option Instr → AsmLine
  | some i => .command i
  | none => .error

/-- One line of text (R69): what stands before the first `;`, a name and at most one operand. -/
def assembleLine (line : List Char) : AsmLine :=
  match wordsFrom [] (line.takeWhile (· != ';')) with
  | [] => .blank
  | [name] => .ofOption ((AsmName.ofText name).bind fun n => assemble ⟨n, none⟩)
  | [name, operand] =>
    .ofOption ((AsmName.ofText name).bind fun n =>
      (operandOf n.format operand).bind fun v => assemble ⟨n, some v⟩)
  | _ => .error

/-- The lines of a text. `line` is the line begun, last letter first. -/
def linesFrom : List Char → List Char → List (List Char)
  | line, [] => [line.reverse]
  | line, c :: cs => if c == '\n' then line.reverse :: linesFrom [] cs else linesFrom (c :: line) cs

/-- The commands of lines in order. One line that is an assembler error refuses the whole text (the
model's choice, log entry 14). -/
def commandsOf : List (List Char) → Option (List Instr)
  | [] => some []
  | l :: ls =>
    match assembleLine l with
    | .blank => commandsOf ls
    | .command i => (commandsOf ls).map fun is => i :: is
    | .error => none

/-- A text, one command a line (R69). -/
def assembleText (text : String) : Option (List Instr) := commandsOf (linesFrom [] text.toList)

end Sys2Proof.Machine
end

