-- ==== Sys2Proof/Machine/Macros.lean ====
section
/-! DEFINITION. The frame macros (48_frame_macros.md R160 to R176): host programs over the block's
commands, outside the block (00_scope.md R4). Offsets and lengths are the corrected ones of
90_conflicts.md C1 to C5. A macro answers none only if the block stopped, which it never does (R199);
inside, its result is none where a response had a fault, which makes it void (R160). -/

namespace Sys2Proof.Machine

/-- The host presents one command and takes its response (R160). -/
def issue (i : Instr) (s : State) : Option (State × Response) := transact (encode i) s

/-- The host presents commands one after another and takes their responses, in order. -/
def issueAll : List Instr → State → Option (State × List Response)
  | [], s => some (s, [])
  | i :: is, s =>
    match issue i s with
    | none => none
    | some (t, r) =>
      match issueAll is t with
      | none => none
      | some (u, rs) => some (u, r :: rs)

/-- No response had a fault (R160, R220). -/
def clean (rs : List Response) : Bool := rs.all fun r => r.fault == FaultCode.none

/-- The low byte of a response's data. -/
def dataByte (r : Response) : Byte := r.data.extractLsb' 0 8

/-- `CRC16 m` (R161). -/
def macroCrc16 (m : List Byte) (s : State) : Option (State × Word16) :=
  match issueAll (Instr.crcInit :: m.map Instr.crcUpd) s with
  | none => none
  | some (t, _) =>
    match issue .crcRd t with
    | none => none
    | some (u, r) => some (u, r.data.extractLsb' 0 16)

/-- The fields of ControlMessage (R162). No frame carries what `header` and `version` hold: version 1
sends neither, and the version 2 encoder sends the header constant and sets the version to 2 (R163). -/
structure ControlMessage where
  header : Byte
  version : Byte
  axisX : Byte
  axisY : Byte
  axisZ : Byte
  axisW : Byte
  debugFlag : Byte
  thrusterPower : Vector Byte 10
  manipulatorRotation : Byte
  cameraRotation : Vector Byte 3
  manipulatorOpenClose : Byte
  pumpLazerButton : Byte
  regulators : Byte
  desiredDepth : Word32
  desiredYaw : Word32
  cameraIndex : Byte
  deriving DecidableEq, Repr

/-- The fields from the axes to the regulators, which both versions send in one order, with the first
`thrusters` of the ten thrusters (R162, R163). -/
def commonPuts (thrusters : Nat) (m : ControlMessage) : List Instr :=
  List.flatten
    [[.putI8 m.axisX, .putI8 m.axisY, .putI8 m.axisZ, .putI8 m.axisW, .putU8 m.debugFlag],
     (m.thrusterPower.toList.take thrusters).map Instr.putI8,
     [.putI8 m.manipulatorRotation],
     m.cameraRotation.toList.map Instr.putI8,
     [.putI8 m.manipulatorOpenClose, .putI8 m.pumpLazerButton, .putU8 m.regulators]]

/-- The 19 PUT commands of `ENCODE_CONTROL_V1` (R162). -/
def controlV1Puts (m : ControlMessage) : List Instr :=
  List.flatten [commonPuts 6 m, [.putF32 m.desiredDepth]]

/-- The 27 PUT commands of `ENCODE_CONTROL_V2` (R163), the version 2 whatever the message holds. -/
def controlV2Puts (m : ControlMessage) : List Instr :=
  List.flatten
    [[.putU8 0xAC, .putI8 2], commonPuts 10 m,
     [.putF32 m.desiredDepth, .putF32 m.desiredYaw, .putI8 m.cameraIndex]]

/-- The host reads `n` bytes out, from offset 0 (R162). -/
def readOut (n : Nat) : List Instr := (List.range n).map fun k => Instr.getU8 (BitVec.ofNat 16 k)

/-- An encode macro of a frame of `n` bytes: CLR, the PUTs, PUT.CRC, then the bytes read out. A fault
makes the result void (R160); that the host still issues the PUTs that follow it and PUT.CRC, and then
reads nothing out, is the model's choice (log entry 18). -/
def encodeFrame (puts : List Instr) (n : Nat) (s : State) : Option (State × Option (List Byte)) :=
  match issueAll (Instr.clr :: (puts ++ [Instr.putCrc])) s with
  | none => none
  | some (t, rs) =>
    if clean rs then
      match issueAll (readOut n) t with
      | none => none
      | some (u, gs) => some (u, some (gs.map dataByte))
    else some (t, none)

/-- `ENCODE_CONTROL_V1` (R162): 24 bytes. -/
def encodeControlV1 (m : ControlMessage) (s : State) : Option (State × Option (List Byte)) :=
  encodeFrame (controlV1Puts m) 24 s

/-- `ENCODE_CONTROL_V2` (R163): 35 bytes. -/
def encodeControlV2 (m : ControlMessage) (s : State) : Option (State × Option (List Byte)) :=
  encodeFrame (controlV2Puts m) 35 s

/-- The fields of TelemetryMessage (R165). -/
structure TelemetryMessage where
  header : Byte
  version : Byte
  depth : Word32
  temperature : Word32
  pitch : Word32
  yaw : Word32
  roll : Word32
  ammeter : Word32
  voltmeter : Word32
  regulatorsFeedback : Byte
  manipulatorAngle : Byte
  manipulatorState : Byte
  cameraIndex : Byte
  deriving DecidableEq, Repr

/-- The default message: every field zero (R166). -/
def TelemetryMessage.default : TelemetryMessage :=
  ⟨0, 0, 0, 0, 0, 0, 0, 0, 0, 0, 0, 0, 0⟩

/-- The common decode procedure (R166): CLR, LOAD every byte, CHK, and the field reads only after
NoError. Its result is the error code and the field responses. A fault makes the result void (R160);
that the host still issues the LOADs that follow it, and then no CHK, is the model's choice (log
entry 18). -/
def decodeFrame (k : Word16) (fields : List Instr) (m : List Byte) (s : State) :
    Option (State × Option (ErrorCode × List Response)) :=
  match issueAll (Instr.clr :: m.map Instr.load) s with
  | none => none
  | some (t, rs) =>
    if clean rs then
      match issue (.chk k) t with
      | none => none
      | some (u, r) =>
        if r.err = .noError then
          match issueAll fields u with
          | none => none
          | some (v, gs) => some (v, some (.noError, gs))
        else some (u, some (r.err, []))
    else some (t, none)

/-- The field reads of `DECODE_TELEMETRY_V1` (R167). -/
def telemetryV1Gets : List Instr :=
  [.getF32 0, .getF32 4, .getF32 8, .getF32 12, .getF32 16, .getF32 20,
   .getU8 24, .getI8 25, .getI8 26]

/-- The message of those reads; the fields with no source keep their default (R167). -/
def telemetryV1Of : List Response → TelemetryMessage
  | [depth, pitch, yaw, roll, ammeter, voltmeter, feedback, angle, state] =>
    { TelemetryMessage.default with
      depth := depth.data, pitch := pitch.data, yaw := yaw.data, roll := roll.data
      ammeter := ammeter.data, voltmeter := voltmeter.data
      regulatorsFeedback := dataByte feedback
      manipulatorAngle := dataByte angle, manipulatorState := dataByte state }
  | _ => TelemetryMessage.default

/-- The field reads of `DECODE_TELEMETRY_V2` (R168). -/
def telemetryV2Gets : List Instr :=
  [.getU8 0, .getI8 1, .getF32 2, .getF32 6, .getF32 10, .getF32 14, .getF32 18, .getF32 22,
   .getU8 26, .getI8 27, .getI8 28, .getU8 29, .getF32 30]

/-- The message of those reads (R168). -/
def telemetryV2Of : List Response → TelemetryMessage
  | [header, version, depth, pitch, yaw, roll, ammeter, voltmeter, feedback, angle, state, camera,
      temperature] =>
    { header := dataByte header, version := dataByte version
      depth := depth.data, temperature := temperature.data, pitch := pitch.data, yaw := yaw.data
      roll := roll.data, ammeter := ammeter.data, voltmeter := voltmeter.data
      regulatorsFeedback := dataByte feedback, manipulatorAngle := dataByte angle
      manipulatorState := dataByte state, cameraIndex := dataByte camera }
  | _ => TelemetryMessage.default

/-- A decode macro's answer: a message with its error code, the default message on any error (R166). -/
def decodeAnswer (message : List Response → TelemetryMessage)
    (d : Option (State × Option (ErrorCode × List Response))) :
    Option (State × Option (TelemetryMessage × ErrorCode)) :=
  match d with
  | none => none
  | some (t, none) => some (t, none)
  | some (t, some (.noError, gs)) => some (t, some (message gs, .noError))
  | some (t, some (.wrongCrc, _)) => some (t, some (TelemetryMessage.default, .wrongCrc))
  | some (t, some (.wrongDataSize, _)) => some (t, some (TelemetryMessage.default, .wrongDataSize))

/-- `DECODE_TELEMETRY_V1` (R167). -/
def decodeTelemetryV1 (m : List Byte) (s : State) :
    Option (State × Option (TelemetryMessage × ErrorCode)) :=
  decodeAnswer telemetryV1Of (decodeFrame 34 telemetryV1Gets m s)

/-- `DECODE_TELEMETRY_V2` (R168). -/
def decodeTelemetryV2 (m : List Byte) (s : State) :
    Option (State × Option (TelemetryMessage × ErrorCode)) :=
  decodeAnswer telemetryV2Of (decodeFrame 36 telemetryV2Gets m s)

/-- The PUT commands of a Telemetry v1 frame of 34 bytes (R169), the five bytes at offsets 27 to 31
that the source does not name being `unnamed`. -/
def telemetryV1Puts (m : TelemetryMessage) (unnamed : Vector Byte 5) : List Instr :=
  List.flatten
    [[.putF32 m.depth, .putF32 m.pitch, .putF32 m.yaw, .putF32 m.roll, .putF32 m.ammeter,
      .putF32 m.voltmeter, .putU8 m.regulatorsFeedback, .putI8 m.manipulatorAngle,
      .putI8 m.manipulatorState],
     unnamed.toList.map Instr.putU8]

/-- A sender's Telemetry v1 frame of 34 bytes with any five bytes at offsets 27 to 31: what the decode
macro must accept (R167, 93_implementation_defined.md U4; 95_test_vectors.md P5 uses 11 to 55). -/
def encodeTelemetryV1With (m : TelemetryMessage) (unnamed : Vector Byte 5) (s : State) :
    Option (State × Option (List Byte)) :=
  encodeFrame (telemetryV1Puts m unnamed) 34 s

/-- `ENCODE_TELEMETRY_V1` (R169): 34 bytes, 0x00 at offsets 27 to 31 (92_eei_decisions.md D27). -/
def encodeTelemetryV1 (m : TelemetryMessage) (s : State) : Option (State × Option (List Byte)) :=
  encodeTelemetryV1With m (Vector.replicate 5 0x00) s

/-- The PUT commands of `ENCODE_TELEMETRY_V2` (R169). -/
def telemetryV2Puts (m : TelemetryMessage) : List Instr :=
  [.putU8 0xAE, .putI8 2, .putF32 m.depth, .putF32 m.pitch, .putF32 m.yaw, .putF32 m.roll,
   .putF32 m.ammeter, .putF32 m.voltmeter, .putU8 m.regulatorsFeedback, .putI8 m.manipulatorAngle,
   .putI8 m.manipulatorState, .putU8 m.cameraIndex, .putF32 m.temperature]

/-- `ENCODE_TELEMETRY_V2` (R169): 36 bytes. -/
def encodeTelemetryV2 (m : TelemetryMessage) (s : State) : Option (State × Option (List Byte)) :=
  encodeFrame (telemetryV2Puts m) 36 s

/-- `GET_VERSION` (R170): the signed version byte, or 0 for a short or damaged frame alike. -/
def getVersion (m : List Byte) (s : State) : Option (State × Option Byte) :=
  match decodeFrame 4 [.getU8 0, .getI8 1] m s with
  | none => none
  | some (t, none) => some (t, none)
  | some (t, some (.noError, [_, version])) => some (t, some (dataByte version))
  | some (t, some _) => some (t, some 0)

end Sys2Proof.Machine
end

