-- ==== Sys2Proof/Machine/Pins.lean ====
section
/-! DEFINITION. The pins and the port protocol (30_encoding.md R74, R75; reset R210, R211, R213), one
function per rising edge of `clk`. The transaction-level machine (`step`) does not need this layer
(R74). `LAT` is not represented (R222): whether a command's execution ends in this cycle is a free
input of the edge, so every statement about the port holds for every choice of `LAT` (log entry 6). -/

namespace Sys2Proof.Machine

/-- The input pins in one cycle (R74). -/
structure PinsIn where
  rst : Bool
  cmdValid : Bool
  cmd : CommandWord
  rspReady : Bool
  deriving DecidableEq, Repr

/-- The output pins in one cycle (R74). `rsp` has a value only while `rsp_valid` is 1 (log entry 8). -/
structure PinsOut where
  cmdReady : Bool
  rspValid : Bool
  rsp : Option ResponseWord
  deriving DecidableEq, Repr

/-- Where the port stands (R75): no command in the block; a command accepted and not yet responded to;
a response presented and not yet delivered. -/
inductive Phase where
  | idle
  | busy (w : CommandWord)
  | responding (w : CommandWord) (r : Response)
  deriving DecidableEq, Repr

/-- The block behind its pins. `block.responses` holds the responses DELIVERED. -/
structure Port where
  block : State
  phase : Phase
  deriving DecidableEq, Repr

/-- After a cycle of `rst` from nothing: `cmd_ready` is 1 and no response is pending (R211). -/
def Port.reset : Port := ⟨State.reset, .idle⟩

/-- The output pins a port drives (R75). They show the phase in a cycle of `rst` too, in which nothing
is accepted or delivered (R210): the spec does not say what they show then, and that is the model's
choice (log entry 17). -/
def Port.out (p : Port) : PinsOut :=
  match p.phase with
  | .idle => ⟨true, false, none⟩
  | .busy _ => ⟨false, false, none⟩
  | .responding _ r => ⟨false, true, some r.word⟩

/-- One cycle: the input pins, and whether an accepted command's execution ends in it. -/
structure Edge where
  pins : PinsIn
  done : Bool
  deriving DecidableEq, Repr

/-- An accepted command is executed: its writes take effect, then its response is presented
(20_memory.md R51 (c)). The response is not delivered yet. -/
def Port.execute (w : CommandWord) (s : State) : Port :=
  match transact w s with
  | some (t, r) => ⟨{ t with responses := s.responses }, .responding w r⟩
  | none => ⟨s, .busy w⟩

/-- One rising edge of `clk` (R75, R210, R213). -/
def Port.edge (e : Edge) (p : Port) : Port :=
  if e.pins.rst then ⟨resetBlock p.block, .idle⟩
  else
    match p.phase with
    | .idle =>
      if e.pins.cmdValid then
        if e.done then Port.execute e.pins.cmd p.block else ⟨p.block, .busy e.pins.cmd⟩
      else p
    | .busy w => if e.done then Port.execute w p.block else p
    | .responding _ r =>
      if e.pins.rspReady then ⟨p.block.answer r, .idle⟩
      else p

/-- What a rising edge completes, seen at transaction level: the delivery of a command's response, or
a reset, which abandons the command in the block if there is one (R213). -/
def Port.completes (e : Edge) (p : Port) : Option HostEvent :=
  if e.pins.rst then
    match p.phase with
    | .idle => some .reset
    | .busy w => some (.resetDuring w)
    | .responding w _ => some (.resetDuring w)
  else
    match p.phase with
    | .responding w _ => if e.pins.rspReady then some (.command w) else none
    | .idle => none
    | .busy _ => none

/-- A run of cycles. -/
def Port.run : List Edge → Port → Port
  | [], p => p
  | e :: es, p => Port.run es (Port.edge e p)

/-- What a run of cycles completes, in order. -/
def Port.completed : List Edge → Port → List HostEvent
  | [], _ => []
  | e :: es, p => (Port.completes e p).toList ++ Port.completed es (Port.edge e p)

/-- The host's duty at the command port (R75, R218): a command presented and not accepted is presented
again, unchanged, in the next cycle. -/
def holdsCommand (e e' : Edge) (p : Port) : Bool :=
  !e.pins.cmdValid || (p.out.cmdReady && !e.pins.rst) ||
    (e'.pins.cmdValid && e'.pins.cmd == e.pins.cmd)

end Sys2Proof.Machine
end

