-- ==== Sys2Proof/Safety.lean ====
section
/-! DEFINITION. What claims are stated in: legal responses (30_encoding.md R73), the invariant of every
step (10_state.md R24), good runs (70_reset_and_hazards.md R220), and which commands write what (R33). -/

namespace Sys2Proof.Machine

/-- A response that carries a fault carries no error and no value (R73 item 2), and one that carries
an error carries no fault and no value (R73 item 3). -/
def Response.legal (r : Response) : Bool :=
  decide ((r.fault ≠ .none → r.err = .noError ∧ r.data = 0) ∧
    (r.err ≠ .noError → r.fault = .none ∧ r.data = 0))

/-- The invariant every step keeps: LEN is at most BUF_SIZE (R24), and every response given was a legal
one (R73). -/
structure State.Inv (s : State) : Prop where
  len_le : Memory.wf s.buf = true
  responses_legal : ∀ r ∈ s.responses, r.legal = true

/-- Neither sticky flag is set (R195). -/
def State.flagsClear (s : State) : Bool := !s.ill && !s.ovf

/-- One step of a run, from a state to the next. -/
def StepsTo (s t : State) : Prop := step s = .next t

/-- `t` is reached from `s` in some number of steps. -/
inductive Reaches : State → State → Prop where
  | refl (s : State) : Reaches s s
  | tail {s t u : State} : Reaches s t → StepsTo t u → Reaches s u

/-- The commands that write CRC (R22). -/
def writesCrc : Instr → Bool
  | .crcInit => true
  | .crcUpd _ => true
  | .putU8 _ => false
  | .putI8 _ => false
  | .putF32 _ => false
  | .putCrc => true
  | .getU8 _ => false
  | .getI8 _ => false
  | .getF32 _ => false
  | .chk _ => true
  | .clr => false
  | .rdSr _ => false

/-- The byte a command folds into the running CRC, if it is a CRC.UPD (R95). -/
def updByte : Instr → Option Byte
  | .crcUpd b => some b
  | _ => none

/-- The commands that append to BUF (R23): how many bytes each appends (R114). -/
def appends : Instr → Option Nat
  | .crcInit => none
  | .crcUpd _ => none
  | .putU8 _ => some 1
  | .putI8 _ => some 1
  | .putF32 _ => some 4
  | .putCrc => some 2
  | .getU8 _ => none
  | .getI8 _ => none
  | .getF32 _ => none
  | .chk _ => none
  | .clr => none
  | .rdSr _ => none

/-- The commands that may answer an error code (R73 item 4): the GETs and CHK. -/
def mayAnswer : Instr → ErrorCode → Bool
  | _, .noError => true
  | .chk _, .wrongCrc => true
  | .chk _, .wrongDataSize => true
  | .getU8 _, .wrongDataSize => true
  | .getI8 _, .wrongDataSize => true
  | .getF32 _, .wrongDataSize => true
  | _, _ => false

/-- The commands with a value to return (R73 item 6). -/
def hasValue : Instr → Bool
  | .crcInit => false
  | .crcUpd _ => false
  | .putU8 _ => false
  | .putI8 _ => false
  | .putF32 _ => false
  | .putCrc => true
  | .getU8 _ => true
  | .getI8 _ => true
  | .getF32 _ => true
  | .chk _ => false
  | .clr => false
  | .rdSr _ => true

end Sys2Proof.Machine
end

