-- ==== Sys2Proof/Certificates/Slice0/Obligations.lean ====
section
/-! DEFINITION. The statements for the provers. A rule R<n> is spec/'s; the statements of one command
hold in every state, and say its next state whole, so that what is not named is unchanged. -/

open Sys2Proof Sys2Proof.Machine

/-! ## The checksum functions -/

/-- R90, in its equivalent form. -/
def Obligations.CrcRoundShiftsAndAddsPolynomial : Prop :=
  ∀ r : Word16,
    crcRound r = (r.extractLsb' 0 15 ++ 0#1) ^^^ (if r.getLsbD 15 then 0x1021#16 else 0x0000#16)

/-- R91: the byte is exclusive-ored into bits 15:8, then eight rounds. -/
def Obligations.CrcByteIsEightRoundsOnTheHighByte : Prop :=
  ∀ (r : Word16) (b : Byte),
    crcByte r b = crcRound (crcRound (crcRound (crcRound (crcRound (crcRound (crcRound (crcRound
      ((r.extractLsb' 8 8 ^^^ b) ++ r.extractLsb' 0 8))))))))

/-- R92: from 0xFFFF, one byte after another, no final exclusive-or. -/
def Obligations.Crc16FoldsBytesFromInitialRegister : Prop :=
  crc16 [] = 0xFFFF#16 ∧ ∀ (m : List Byte) (b : Byte), crc16 (m ++ [b]) = crcByte (crc16 m) b

/-- R97 (a): streaming. -/
def Obligations.Crc16OfConcatenationContinuesTheRegister : Prop :=
  ∀ m n : List Byte, crc16 (m ++ n) = n.foldl crcByte (crc16 m)

/-- R97 (b): linearity over exclusive-or. -/
def Obligations.CrcRoundAndCrcByteAreLinear : Prop :=
  (∀ a b : Word16, crcRound (a ^^^ b) = crcRound a ^^^ crcRound b) ∧
    (∀ (r1 r2 : Word16) (b1 b2 : Byte),
      crcByte (r1 ^^^ r2) (b1 ^^^ b2) = crcByte r1 b1 ^^^ crcByte r2 b2) ∧
    crcRound 0 = 0 ∧ crcByte 0 0 = 0

/-- R97 (c): two messages of one length that differ in exactly one bit have different CRCs. -/
def Obligations.SingleBitFlipChangesCrc16 : Prop :=
  ∀ (pre post : List Byte) (b : Byte) (j : Nat), j < 8 →
    crc16 (pre ++ [b ^^^ (1#8 <<< j)] ++ post) ≠ crc16 (pre ++ [b] ++ post)

/-- U9: a change confined to one byte changes the CRC. -/
def Obligations.SingleByteChangeChangesCrc16 : Prop :=
  ∀ (pre post : List Byte) (b c : Byte), b ≠ c →
    crc16 (pre ++ [b] ++ post) ≠ crc16 (pre ++ [c] ++ post)

/-- R97 (d): a message followed by its own CRC, more significant byte first, has CRC 0. -/
def Obligations.Crc16OfFrameWithItsTrailerIsZero : Prop :=
  ∀ m : List Byte,
    crc16 (m ++ [(crc16 m).extractLsb' 8 8, (crc16 m).extractLsb' 0 8]) = 0x0000#16

/-! ## The codec functions -/

/-- R133: each pack and unpack pair is a bijection, and the two byte types read the same bits. -/
def Obligations.PackAndUnpackAreInverse : Prop :=
  (∀ v : Byte, unpackU8 (packU8 v) = some v) ∧
    (∀ v : Byte, unpackI8 (packI8 v) = some v) ∧
    (∀ p : Word32, unpackF32 (packF32 p) = some p) ∧
    (∀ bs : List Byte, bs.length = 1 → ∃ v, unpackU8 bs = some v ∧ packU8 v = bs) ∧
    (∀ bs : List Byte, bs.length = 1 → ∃ v, unpackI8 bs = some v ∧ packI8 v = bs) ∧
    (∀ bs : List Byte, bs.length = 4 → ∃ p, unpackF32 bs = some p ∧ packF32 p = bs) ∧
    (unpackU8 (packI8 (BitVec.ofInt 8 (-100)))).map BitVec.toNat = some 156

/-! ## The CRC family -/

/-- R94. -/
def Obligations.CrcInitLoadsTheInitialRegister : Prop :=
  decode 0x1000000000#40 = .ok .crcInit ∧
    (∀ arg : Word32, arg ≠ 0 → ∃ e, decode (0x10#8 ++ arg) = .error e) ∧
    ∀ s : State,
      exec .crcInit s = .next (({ s with crc := 0xFFFF#16 } : State).answer ⟨0, .noError, .none⟩)

/-- R95: the encoding, the effect, that no byte makes the register stick, and what a stream leaves,
with any commands between that do not write CRC. -/
def Obligations.CrcUpdFoldsOneByteIntoTheRegister : Prop :=
  (∀ b : Byte, decode (0x11000000#32 ++ b) = .ok (.crcUpd b)) ∧
    (∀ (b : Byte) (s : State),
      exec (.crcUpd b) s =
        .next (({ s with crc := crcByte s.crc b } : State).answer ⟨0, .noError, .none⟩)) ∧
    (∀ b : Byte, Function.Bijective fun r : Word16 => crcByte r b) ∧
    ∀ (is : List Instr) (s : State), (∀ i ∈ is, writesCrc i = true → ∃ b, i = .crcUpd b) →
      ∃ (t : State) (rs : List Response), issueAll (.crcInit :: is) s = some (t, rs) ∧
        t.crc = crc16 (is.filterMap updByte)

/-! ## The pack family -/

/-- R115. -/
def Obligations.PutU8AppendsOneByte : Prop :=
  (∀ b : Byte, decode (0x20000000#32 ++ b) = .ok (.putU8 b)) ∧
    (∀ (b : Byte) (s : State), s.buf.length + 1 ≤ Config.bufSize →
      exec (.putU8 b) s =
        .next (({ s with buf := s.buf ++ [b] } : State).answer ⟨0, .noError, .none⟩)) ∧
    ∀ (b : Byte) (s : State), Config.bufSize < s.buf.length + 1 →
      exec (.putU8 b) s = .next (({ s with ovf := true } : State).answer ⟨0, .noError, .ovf⟩)

/-- R116: both rows of the encoding, the effect, and the byte it shares with PUT.U8. -/
def Obligations.PutI8AppendsOneSignedByte : Prop :=
  (∀ b : Byte, b.toInt < 0 → decode (0x21FFFFFF#32 ++ b) = .ok (.putI8 b)) ∧
    (∀ b : Byte, 0 ≤ b.toInt → decode (0x21000000#32 ++ b) = .ok (.putI8 b)) ∧
    (∃ e, decode 0x2100000080#40 = .error e) ∧
    (∃ e, decode 0x21FFFFFF7F#40 = .error e) ∧
    (∀ (b : Byte) (s : State), s.buf.length + 1 ≤ Config.bufSize →
      exec (.putI8 b) s =
        .next (({ s with buf := s.buf ++ [b] } : State).answer ⟨0, .noError, .none⟩)) ∧
    (∀ (b : Byte) (s : State), Config.bufSize < s.buf.length + 1 →
      exec (.putI8 b) s = .next (({ s with ovf := true } : State).answer ⟨0, .noError, .ovf⟩)) ∧
    ∀ (b : Byte) (s : State), exec (.putI8 b) s = exec (.putU8 b) s

/-- R117. -/
def Obligations.PutF32AppendsFourBytesBigEndian : Prop :=
  (∀ p : Word32, decode (0x22#8 ++ p) = .ok (.putF32 p)) ∧
    (∀ (p : Word32) (s : State), s.buf.length + 4 ≤ Config.bufSize →
      exec (.putF32 p) s =
        .next (({ s with buf := s.buf ++ [p.extractLsb' 24 8, p.extractLsb' 16 8,
          p.extractLsb' 8 8, p.extractLsb' 0 8] } : State).answer ⟨0, .noError, .none⟩)) ∧
    ∀ (p : Word32) (s : State), Config.bufSize < s.buf.length + 4 →
      exec (.putF32 p) s = .next (({ s with ovf := true } : State).answer ⟨0, .noError, .ovf⟩)

/-- R118: the encoding, the effect, the empty frame, a second PUT.CRC, and CHK afterwards. -/
def Obligations.PutCrcAppendsTheCrcOfTheFrame : Prop :=
  decode 0x2300000000#40 = .ok .putCrc ∧
    (∀ s : State, s.buf.length + 2 ≤ Config.bufSize →
      exec .putCrc s =
        .next (({ s with
          crc := crc16 s.buf
          buf := s.buf ++ [(crc16 s.buf).extractLsb' 8 8, (crc16 s.buf).extractLsb' 0 8] } :
            State).answer ⟨(crc16 s.buf).zeroExtend 32, .noError, .none⟩)) ∧
    (∀ s : State, Config.bufSize < s.buf.length + 2 →
      exec .putCrc s = .next (({ s with ovf := true } : State).answer ⟨0, .noError, .ovf⟩)) ∧
    (∀ s : State, s.buf = [] → ∃ t, exec .putCrc s = .next t ∧ t.buf = [0xFF, 0xFF]) ∧
    (∀ s t : State, s.buf.length + 4 ≤ Config.bufSize → exec .putCrc s = .next t →
      ∃ u, exec .putCrc t = .next u ∧ u.buf = t.buf ++ [0x00, 0x00] ∧ u.crc = 0x0000#16) ∧
    ∀ (s t : State) (k : Word16), s.buf.length + 2 ≤ Config.bufSize → exec .putCrc s = .next t →
      k.toNat ≤ t.buf.length → exec (.chk k) t = .next (t.answer ⟨0, .noError, .none⟩)

/-- The append step (R114, R119): a field is appended completely or not at all, at the offset the
meanings compute, `appendOffset`; every byte outside it is as before, and nothing changes but OVF (when
refused) and CRC (by PUT.CRC). -/
def Obligations.AppendIsAllOrNothingAndTouchesNothingElse : Prop :=
  ∀ (i : Instr) (n : Nat) (s : State), appends i = some n →
    ∃ (t : State) (r : Response), exec i s = .next t ∧ t.responses = s.responses ++ [r] ∧
      t.pending = s.pending ∧ t.ill = s.ill ∧
      (∀ a, a < appendOffset s ∨ appendOffset s + n ≤ a →
        Memory.byte t.buf a = Memory.byte s.buf a) ∧
      (s.buf.length + n ≤ Config.bufSize →
        t.buf.length = s.buf.length + n ∧ t.ovf = s.ovf ∧ r.fault = .none ∧ r.err = .noError ∧
          (i ≠ .putCrc → t.crc = s.crc)) ∧
      (Config.bufSize < s.buf.length + n →
        t.buf = s.buf ∧ t.crc = s.crc ∧ t.ovf = true ∧ r = ⟨0, .noError, .ovf⟩)

/-! ## The unpack family -/

/-- R135. -/
def Obligations.GetU8ReadsOneByteZeroExtended : Prop :=
  (∀ o : Word16, decode (0x300000#24 ++ o) = .ok (.getU8 o)) ∧
    ∀ (o : Word16) (s : State),
      (∀ h : o.toNat < s.buf.length,
        exec (.getU8 o) s =
          .next (s.answer ⟨(s.buf[o.toNat]'h).zeroExtend 32, .noError, .none⟩)) ∧
        (s.buf.length ≤ o.toNat →
          exec (.getU8 o) s = .next (s.answer ⟨0, .wrongDataSize, .none⟩))

/-- R136: and the data of a success is a legal argument of PUT.I8. -/
def Obligations.GetI8ReadsOneByteSignExtended : Prop :=
  (∀ o : Word16, decode (0x310000#24 ++ o) = .ok (.getI8 o)) ∧
    (∀ (o : Word16) (s : State),
      (∀ h : o.toNat < s.buf.length,
        exec (.getI8 o) s =
          .next (s.answer ⟨(s.buf[o.toNat]'h).signExtend 32, .noError, .none⟩)) ∧
        (s.buf.length ≤ o.toNat →
          exec (.getI8 o) s = .next (s.answer ⟨0, .wrongDataSize, .none⟩))) ∧
    ∀ b : Byte, decode (0x21#8 ++ b.signExtend 32) = .ok (.putI8 b)

/-- R137: a sum past LEN does not wrap, and a field only partly present gives no part of it. -/
def Obligations.GetF32ReadsFourBytesBigEndian : Prop :=
  (∀ o : Word16, decode (0x320000#24 ++ o) = .ok (.getF32 o)) ∧
    ∀ (o : Word16) (s : State),
      (∀ h : o.toNat + 4 ≤ s.buf.length,
        exec (.getF32 o) s =
          .next (s.answer ⟨s.buf[o.toNat] ++ s.buf[o.toNat + 1] ++ s.buf[o.toNat + 2] ++
            s.buf[o.toNat + 3], .noError, .none⟩)) ∧
        (s.buf.length < o.toNat + 4 →
          exec (.getF32 o) s = .next (s.answer ⟨0, .wrongDataSize, .none⟩))

/-- R138: the encoding, the length test before the CRC, the effect, the shortest frame that passes, and
that a CHK repeated on the same bytes gives the same response and leaves the same CRC. -/
def Obligations.ChkTestsLengthThenTrailer : Prop :=
  (∀ k : Word16, decode (0x330000#24 ++ k) = .ok (.chk k)) ∧
    (∀ (k : Word16) (s : State), (s.buf.length < k.toNat ∨ s.buf.length < 2) →
      exec (.chk k) s = .next (s.answer ⟨0, .wrongDataSize, .none⟩)) ∧
    (∀ (k : Word16) (s : State) (m : List Byte) (b0 b1 : Byte),
      k.toNat ≤ s.buf.length → s.buf = m ++ [b0, b1] →
      exec (.chk k) s =
        .next (({ s with crc := crc16 m } : State).answer
          ⟨0, if crc16 m = b0 ++ b1 then .noError else .wrongCrc, .none⟩)) ∧
    (∀ (k : Word16) (s : State), s.buf.length = 2 → k.toNat ≤ 2 →
      (exec (.chk k) s =
        .next (({ s with crc := 0xFFFF#16 } : State).answer ⟨0, .noError, .none⟩) ↔
          s.buf = [0xFF, 0xFF])) ∧
    ∀ (k : Word16) (s s' : State), s'.buf = s.buf →
      ∃ (t t' : State) (r : Response), exec (.chk k) s = .next t ∧ exec (.chk k) s' = .next t' ∧
        t.responses = s.responses ++ [r] ∧ t'.responses = s'.responses ++ [r] ∧
        (r.err ≠ .wrongDataSize → t'.crc = t.crc)

/-- R97 (d), last sentence: CHK agrees with running the whole frame, trailer included, through the
engine. -/
def Obligations.ChkAgreesWithTheResidueTest : Prop :=
  ∀ (k : Word16) (s : State), k.toNat ≤ s.buf.length → 2 ≤ s.buf.length →
    ∃ (t : State) (r : Response), exec (.chk k) s = .next t ∧ t.responses = s.responses ++ [r] ∧
      (r.err = .noError ↔ crc16 s.buf = 0x0000#16)

/-- The source's corruption property, for a change confined to one byte before the trailer (U9): CHK
answers WrongCrc. -/
def Obligations.ChkCatchesAnyOneByteChangeBeforeTheTrailer : Prop :=
  ∀ (k : Word16) (s : State) (pre post : List Byte) (b c : Byte), b ≠ c →
    s.buf = pre ++ [c] ++ post ++ pack16 (crc16 (pre ++ [b] ++ post)) →
    k.toNat ≤ s.buf.length →
    ∃ t, exec (.chk k) s = .next t ∧
      t.responses = s.responses ++ [⟨0, .wrongCrc, .none⟩] ∧ t.buf = s.buf

/-- R141: no GET and no CHK fails to respond, sets a flag, or changes BUF or LEN. -/
def Obligations.GetsAndChkAlwaysRespondAndKeepTheBuffer : Prop :=
  ∀ (o : Word16) (i : Instr), i ∈ [Instr.getU8 o, .getI8 o, .getF32 o, .chk o] → ∀ s : State,
    ∃ (t : State) (r : Response), exec i s = .next t ∧ t.responses = s.responses ++ [r] ∧
      t.buf = s.buf ∧
      t.len = s.len ∧ t.ill = s.ill ∧ t.ovf = s.ovf ∧ t.pending = s.pending

/-! ## The control family -/

/-- R150: and afterwards every GET and every CHK answers WrongDataSize. -/
def Obligations.ClrEmptiesTheBufferAndKeepsTheFlags : Prop :=
  decode 0x4000000000#40 = .ok .clr ∧
    (∀ s : State,
      exec .clr s = .next (({ s with buf := [] } : State).answer ⟨0, .noError, .none⟩)) ∧
    ∀ s t : State, exec .clr s = .next t → ∀ (o : Word16) (i : Instr),
      i ∈ [Instr.getU8 o, .getI8 o, .getF32 o, .chk o] →
        exec i t = .next (t.answer ⟨0, .wrongDataSize, .none⟩)

/-- R151, with the layouts R28 to R31. -/
def Obligations.RdSrReturnsTheStatusRegister : Prop :=
  decode 0x4100000000#40 = .ok (.rdSr .crc) ∧ decode 0x4100000001#40 = .ok (.rdSr .len) ∧
    decode 0x4100000002#40 = .ok (.rdSr .status) ∧ decode 0x4100000003#40 = .ok (.rdSr .cap) ∧
    (∀ arg : Word32, 4 ≤ arg.toNat → ∃ e, decode (0x41#8 ++ arg) = .error e) ∧
    ∀ s : State,
      exec (.rdSr .crc) s = .next (s.answer ⟨s.crc.zeroExtend 32, .noError, .none⟩) ∧
      exec (.rdSr .len) s = .next (s.answer ⟨s.len.zeroExtend 32, .noError, .none⟩) ∧
      exec (.rdSr .status) s =
        .next (s.answer ⟨(BitVec.ofBool s.ovf ++ BitVec.ofBool s.ill).zeroExtend 32,
          .noError, .none⟩) ∧
      ∃ d : Word32, exec (.rdSr .cap) s = .next (s.answer ⟨d, .noError, .none⟩) ∧
        d.toNat = Config.bufSize

/-! ## Faults and flags -/

/-- R193: an illegal word, given to the block in any state, sets ILL and does nothing else. -/
def Obligations.IllegalWordSetsIllAndNothingElse : Prop :=
  ∀ (w : CommandWord) (e : Illegal) (s : State) (rest : List HostEvent),
    decode w = .error e → s.pending = .command w :: rest →
      step s =
        .next (({ s with ill := true, pending := rest } : State).answer ⟨0, .noError, .ill⟩)

/-- R194: and a smaller PUT that does fit will succeed. -/
def Obligations.OverflowingPutSetsOvfAndNothingElse : Prop :=
  (∀ (i : Instr) (n : Nat) (s : State), appends i = some n →
    Config.bufSize < s.buf.length + n →
      exec i s = .next (({ s with ovf := true } : State).answer ⟨0, .noError, .ovf⟩)) ∧
    ∀ (i : Instr) (n : Nat) (b : Byte) (s t : State), appends i = some n →
      Config.bufSize < s.buf.length + n → s.buf.length + 1 ≤ Config.bufSize →
      exec i s = .next t →
        exec (.putU8 b) t =
          .next (({ t with buf := t.buf ++ [b] } : State).answer ⟨0, .noError, .none⟩)

/-- R195: only a reset clears ILL or OVF, and a reset clears both. -/
def Obligations.OnlyResetClearsTheStickyFlags : Prop :=
  (∀ s t : State, step s = .next t →
    (s.ill = true ∧ t.ill = false) ∨ (s.ovf = true ∧ t.ovf = false) →
      ∃ rest, s.pending = .reset :: rest ∨ ∃ w, s.pending = .resetDuring w :: rest) ∧
    ∀ (s : State) (rest : List HostEvent), s.pending = .reset :: rest →
      ∃ t, step s = .next t ∧ t.ill = false ∧ t.ovf = false

/-- R22: which commands write CRC, which read it, and that a command that does neither cannot tell one
value of it from another. -/
def Obligations.CrcIsWrittenAndReadOnlyByItsCommands : Prop :=
  (∀ (i : Instr) (s t : State), exec i s = .next t → writesCrc i = false → t.crc = s.crc) ∧
    ∀ (i : Instr) (s : State) (c : Word16), (∀ b, i ≠ .crcUpd b) → i ≠ .rdSr .crc →
      ∃ t u : State, exec i s = .next t ∧ exec i { s with crc := c } = .next u ∧
        u = { t with crc := u.crc } ∧ (u.crc = t.crc ∨ (t.crc = s.crc ∧ u.crc = c))

/-- The "Written by" column of R33, for every command: what none of them changes, and what only some
change. -/
def Obligations.EveryCommandLeavesUnchangedWhatItDoesNotWrite : Prop :=
  ∀ (i : Instr) (s t : State), exec i s = .next t →
    t.pending = s.pending ∧ t.ill = s.ill ∧
      (writesCrc i = false → t.crc = s.crc) ∧
      (appends i = none → t.ovf = s.ovf) ∧
      (appends i = none → i ≠ .clr →
        (∀ a, Memory.byte t.buf a = Memory.byte s.buf a) ∧ t.len = s.len) ∧
      (i = .clr → t.crc = s.crc ∧ t.ovf = s.ovf ∧ ∀ a, Memory.byte t.buf a = none)

/-- R73, items 1 to 6, for every word in every state. -/
def Obligations.EveryResponseObeysTheResponseRules : Prop :=
  ∀ (w : CommandWord) (s : State),
    ∃ (t : State) (r : Response), runWord w s = .next t ∧ t.responses = s.responses ++ [r] ∧
      (r.fault ≠ .none → r.err = .noError ∧ r.data = 0) ∧
      (r.err ≠ .noError → r.fault = .none ∧ r.data = 0) ∧
      (r.err ≠ .noError → ∃ i, decode w = .ok i ∧ mayAnswer i r.err = true) ∧
      (r.fault = .ovf → ∃ i n, decode w = .ok i ∧ appends i = some n) ∧
      (r.fault = .ill ↔ ∃ e, decode w = .error e) ∧
      (∀ i, decode w = .ok i → hasValue i = false → r.data = 0)

/-! ## Decoding and encoding -/

/-- R64, R65: decoding agrees with the opcode map as printed, and at most one row covers a word. -/
def Obligations.DecodingAgreesWithTheOpcodeMap : Prop :=
  (∀ w : CommandWord, (∃ i, decode w = .ok i) ↔ ∃ r ∈ opcodeMap, r.covers w = true) ∧
    (∀ (w : CommandWord) (i : Instr), decode w = .ok i →
      ∃ r ∈ opcodeMap, r.covers w = true ∧ r.mnemonic = i.mnemonic ∧
        r.format = i.mnemonic.format) ∧
    ∀ (w : CommandWord), ∀ r ∈ opcodeMap, ∀ r' ∈ opcodeMap,
      r.covers w = true → r'.covers w = true → r = r'

/-- Decoding what is encoded gives the command back, with every operand at every value. -/
def Obligations.DecodeOfEncodeIsTheCommand : Prop :=
  ∀ i : Instr, i.wellFormed = true ∧ decode (encode i) = .ok i

/-- Every legal word is the encoding of the command it decodes to: no bit of a legal word is ignored. -/
def Obligations.EncodeOfDecodeIsTheWord : Prop :=
  ∀ (w : CommandWord) (i : Instr), decode w = .ok i → encode i = w

/-- Words of each family written out from R60, R62 and R64, and the illegal words R66 names. -/
def Obligations.WrittenOutWordsDecodeAsTheSpecSays : Prop :=
  decode 0x11000000FF#40 = .ok (.crcUpd 0xFF) ∧
    decode 0x21FFFFFF9C#40 = .ok (.putI8 (BitVec.ofInt 8 (-100))) ∧
    decode 0x22C0200000#40 = .ok (.putF32 0xC0200000) ∧
    decode 0x3200000012#40 = .ok (.getF32 18) ∧
    decode 0x3300000004#40 = .ok (.chk 4) ∧
    decode 0x4100000003#40 = .ok (.rdSr .cap) ∧
    ∀ w ∈ [0x0000000000#40, 0xFFFFFFFFFF#40, 0x1000000001#40, 0x2000000100#40, 0x2100000080#40,
        0x21FFFFFF7F#40, 0x3200010000#40, 0x4100000004#40],
      ∃ e, decode w = .error e

/-- R72: the three fields of a response word, and that the host reads back what the block gave. -/
def Obligations.ResponseWordHoldsFaultErrAndData : Prop :=
  ∀ r : Response,
    r.word.extractLsb' 34 2 =
        (match r.fault with | .none => 0#2 | .ill => 1#2 | .ovf => 2#2) ∧
      r.word.extractLsb' 32 2 =
        (match r.err with | .noError => 0#2 | .wrongCrc => 1#2 | .wrongDataSize => 2#2) ∧
      r.word.extractLsb' 0 32 = r.data ∧ Response.ofWord r.word = some r

/-- R69 with the ranges of R63 written out: the assembler takes exactly an operand in the range of the
name, one where the name has an operand and none where it has none; what it gives for a mnemonic is the
command with that very operand; an alias stands for its expansion (R70); the written form of every
command is taken back; and an illegal word is never emitted. -/
def Obligations.AssemblerTakesExactlyOperandsInRange : Prop :=
  (∀ n ∈ [AsmName.core .crcUpd, .core .putU8, .load], assemble ⟨n, none⟩ = none ∧
      ∀ v : Int, (∃ i, assemble ⟨n, some v⟩ = some i) ↔ 0 ≤ v ∧ v ≤ 255) ∧
    (assemble ⟨.core .putI8, none⟩ = none ∧
      ∀ v : Int, (∃ i, assemble ⟨.core .putI8, some v⟩ = some i) ↔ -128 ≤ v ∧ v ≤ 127) ∧
    (assemble ⟨.core .putF32, none⟩ = none ∧
      ∀ v : Int, (∃ i, assemble ⟨.core .putF32, some v⟩ = some i) ↔ 0 ≤ v ∧ v ≤ 4294967295) ∧
    (∀ n ∈ [AsmName.core .getU8, .core .getI8, .core .getF32, .core .chk],
      assemble ⟨n, none⟩ = none ∧
        ∀ v : Int, (∃ i, assemble ⟨n, some v⟩ = some i) ↔ 0 ≤ v ∧ v ≤ 65535) ∧
    (assemble ⟨.core .rdSr, none⟩ = none ∧
      ∀ v : Int, (∃ i, assemble ⟨.core .rdSr, some v⟩ = some i) ↔ 0 ≤ v ∧ v ≤ 3) ∧
    (∀ n ∈ [AsmName.core .crcInit, .core .putCrc, .core .clr, .crcRd, .lenRd, .statusRd, .capRd],
      (∃ i, assemble ⟨n, none⟩ = some i) ∧ ∀ v : Int, assemble ⟨n, some v⟩ = none) ∧
    (∀ (m : Mnemonic) (o : Option Int) (i : Instr), assemble ⟨.core m, o⟩ = some i →
      i.mnemonic = m ∧ i.line.operand = o) ∧
    (assemble ⟨.crcRd, none⟩ = assemble ⟨.core .rdSr, some 0⟩ ∧
      assemble ⟨.lenRd, none⟩ = assemble ⟨.core .rdSr, some 1⟩ ∧
      assemble ⟨.statusRd, none⟩ = assemble ⟨.core .rdSr, some 2⟩ ∧
      assemble ⟨.capRd, none⟩ = assemble ⟨.core .rdSr, some 3⟩ ∧
      ∀ o, assemble ⟨.load, o⟩ = assemble ⟨.core .putU8, o⟩) ∧
    (∀ i : Instr, assemble i.line = some i) ∧
    ∀ (l : SourceLine) (i : Instr), assemble l = some i → ∃ j, decode (encode i) = .ok j

/-- R69 at the level of text: the written form of every command, as a line, stands for that command; a
comment does not change what a line stands for; a line of a name, one space and an operand is a command
exactly when the operand is written as the format has it and is in range; a text of written commands,
each ended by an end of line, is those commands in order; and the encoding is ten hexadecimal digits
that spell the command word. Where R69 says no more these are the model's choices (log entry 14): that
operands but patterns are written in decimal; in the third clause, what `operandOf` reads beyond R69's
words (digits of either case, leading zeros and `-0` taken, `+`, a tab and a carriage return refused);
in the fourth, that the empty line after the last end of line is taken and gives no command. -/
def Obligations.WrittenCommandsAreReadBack : Prop :=
  (∀ i : Instr, assembleLine (written i).toList = .command i) ∧
    (∀ line comment : List Char, assembleLine (line ++ ';' :: comment) = assembleLine line) ∧
    (∀ n ∈ AsmName.all, ∀ operand : List Char, operand ≠ [] → (∀ c ∈ operand, c ≠ ' ' ∧ c ≠ ';') →
      ((∃ i, assembleLine ((AsmName.text n).toList ++ ' ' :: operand) = .command i) ↔
        ∃ v, operandOf n.format operand = some v ∧ n.format.accepts (some v) = true)) ∧
    (∀ is : List Instr,
      assembleText (String.ofList (is.flatMap fun i => (written i).toList ++ ['\n'])) = some is) ∧
    ∀ i : Instr, (encodingText i).toList.length = 10 ∧
      numberOf 16 (encodingText i).toList = some ((encode i).toNat : Int)

/-! ## The machine -/

/-- A step with a legal word at the head of what the host presents is that command's meaning, with the
word taken. -/
def Obligations.StepRunsTheDecodedCommand : Prop :=
  ∀ (s : State) (w : CommandWord) (rest : List HostEvent) (i : Instr),
    s.pending = .command w :: rest → decode w = .ok i →
      step s = exec i { s with pending := rest }

/-- R199: every command word, in every state, gets exactly one response, and after it the block takes
the next thing the host presents. -/
def Obligations.EveryCommandGetsItsResponse : Prop :=
  ∀ (s : State) (w : CommandWord) (e : HostEvent) (rest : List HostEvent),
    s.pending = .command w :: e :: rest →
      ∃ (t : State) (r : Response) (u : State), step s = .next t ∧
        t.responses = s.responses ++ [r] ∧ t.pending = e :: rest ∧
        step t = .next u ∧ u.pending = rest

/-- No state is stuck: every step answers a next state. That a block with nothing pending waits
unchanged is the model's choice (log entry 3). -/
def Obligations.NoStateIsStuck : Prop :=
  (∀ s : State, ∃ t, step s = .next t) ∧ ∀ s : State, s.pending = [] → step s = .next s

/-- R211: every piece of state after reset, from any state, the status registers, and the port. That a
reset leaves the host's own lists, what it still means to do and the responses it has, is the model's
choice (log entry 9), not R211's. -/
def Obligations.ResetLeavesTheResetValues : Prop :=
  (∀ (s t : State) (rest : List HostEvent), s.pending = .reset :: rest → step s = .next t →
    t.crc = 0xFFFF#16 ∧ t.len = 0 ∧ t.buf = [] ∧ t.ill = false ∧ t.ovf = false ∧
      statusReg t .crc = 0x0000FFFF#32 ∧ statusReg t .len = 0x00000000#32 ∧
      statusReg t .status = 0x00000000#32 ∧ (statusReg t .cap).toNat = Config.bufSize) ∧
    (∀ (s : State) (rest : List HostEvent), s.pending = .reset :: rest →
      step s = .next
        { State.reset with pending := rest, responses := s.responses }) ∧
    (∀ (e : Edge) (p : Port), e.pins.rst = true →
      (Port.edge e p).out.cmdReady = true ∧ (Port.edge e p).out.rspValid = false)

/-- R213: a reset during a command leaves exactly the reset state, and its response is never delivered,
at transaction level and at the pins. That a reset leaves the host's own lists, what it still means to
do and the responses it has, is the model's choice (log entry 9), not R213's. -/
def Obligations.ResetDuringACommandAbandonsIt : Prop :=
  (∀ (s : State) (w : CommandWord) (rest : List HostEvent), s.pending = .resetDuring w :: rest →
    step s = .next { State.reset with pending := rest, responses := s.responses }) ∧
    ∀ (e : Edge) (p : Port), e.pins.rst = true →
      Port.edge e p =
        ⟨{ State.reset with pending := p.block.pending, responses := p.block.responses }, .idle⟩

/-- R214: the reset state is the state that follows CRC.INIT and CLR. -/
def Obligations.ResetStateFollowsCrcInitAndClr : Prop :=
  ∀ s : State, s.ill = false → s.ovf = false →
    ∃ t, issueAll [.crcInit, .clr] s =
        some (t, [⟨0, .noError, .none⟩, ⟨0, .noError, .none⟩]) ∧
      t.crc = State.reset.crc ∧ t.buf = State.reset.buf ∧ t.ill = State.reset.ill ∧
      t.ovf = State.reset.ovf

/-- The invariant holds at reset. -/
def Obligations.ResetStateMeetsTheInvariant : Prop := State.reset.Inv

/-- R24 and R73: every step keeps LEN at most BUF_SIZE and every response given legal. -/
def Obligations.EveryStepKeepsTheInvariant : Prop :=
  ∀ s t : State, s.Inv → step s = .next t → t.Inv

/-- Under the invariant LEN counts the bytes of BUF exactly: the 16-bit register does not wrap (R24). -/
def Obligations.LenCountsTheBytesThatHoldAValue : Prop :=
  ∀ s t : State, s.Inv → Reaches s t → t.len.toNat = t.buf.length ∧ t.len.toNat ≤ Config.bufSize

/-- R220: a run of commands, of any length from any state with both flags clear, gives one response a
command, and is good exactly when both flags are still clear at its end. -/
def Obligations.RunIsGoodExactlyWhenTheFlagsStayClear : Prop :=
  ∀ (s : State) (ws : List CommandWord), s.ill = false → s.ovf = false →
    ∃ (t : State) (rs : List Response), runEvents (ws.map HostEvent.command) s = some t ∧
      t.responses = s.responses ++ rs ∧ rs.length = ws.length ∧
      ((∀ r ∈ rs, r.fault = .none) ↔ t.ill = false ∧ t.ovf = false)

/-- R45: four byte reads see a float's bytes in order, a float read assembles the bytes of four byte
appends, and a float read at any offset assembles the four bytes present, whichever commands appended
them. -/
def Obligations.MixedWidthAccessesSeeTheSameBytes : Prop :=
  (∀ (s t : State) (v : Word32), s.buf.length + 4 ≤ Config.bufSize →
    exec (.putF32 v) s = .next t → ∀ o : Word16,
      (o.toNat = s.buf.length →
        exec (.getU8 o) t =
          .next (t.answer ⟨(v.extractLsb' 24 8).zeroExtend 32, .noError, .none⟩)) ∧
      (o.toNat = s.buf.length + 1 →
        exec (.getU8 o) t =
          .next (t.answer ⟨(v.extractLsb' 16 8).zeroExtend 32, .noError, .none⟩)) ∧
      (o.toNat = s.buf.length + 2 →
        exec (.getU8 o) t =
          .next (t.answer ⟨(v.extractLsb' 8 8).zeroExtend 32, .noError, .none⟩)) ∧
      (o.toNat = s.buf.length + 3 →
        exec (.getU8 o) t =
          .next (t.answer ⟨(v.extractLsb' 0 8).zeroExtend 32, .noError, .none⟩)) ∧
      (o.toNat = s.buf.length →
        exec (.getF32 o) t = .next (t.answer ⟨v, .noError, .none⟩))) ∧
    (∀ (s t : State) (rs : List Response) (b0 b1 b2 b3 : Byte) (o : Word16),
      s.buf.length + 4 ≤ Config.bufSize →
      issueAll [.putU8 b0, .putU8 b1, .putU8 b2, .putU8 b3] s = some (t, rs) →
      o.toNat = s.buf.length →
        exec (.getF32 o) t = .next (t.answer ⟨b0 ++ b1 ++ b2 ++ b3, .noError, .none⟩)) ∧
    ∀ (s : State) (pre post : List Byte) (b0 b1 b2 b3 : Byte) (o : Word16),
      s.buf = pre ++ [b0, b1, b2, b3] ++ post → o.toNat = pre.length →
        exec (.getF32 o) s = .next (s.answer ⟨b0 ++ b1 ++ b2 ++ b3, .noError, .none⟩)

/-! ## The port -/

/-- R75: the word on the `cmd` pins in the cycle of acceptance is the command in the block, and its
response is the one presented; while a command is in the block none is accepted, a response is held
steady until it is delivered, and after a delivery the block can take the next command. That the end of
an execution is an input of the cycle, and that the command's writes take effect in that cycle, which
may be the cycle of acceptance, is the model's (log entries 6 and 12). -/
def Obligations.PortHoldsOneCommandUntilItsResponseIsDelivered : Prop :=
  ∀ (e : Edge) (p : Port), e.pins.rst = false →
    (p.out.cmdReady = false → e.pins.rspReady = false → e.done = false → Port.edge e p = p) ∧
      (p.out.cmdReady = false → ∀ w, Port.edge { e with pins := { e.pins with cmd := w } } p =
        Port.edge e p) ∧
      (p.out.cmdReady = true → e.pins.cmdValid = false → Port.edge e p = p) ∧
      (p.out.cmdReady = true → e.pins.cmdValid = true →
        (Port.edge e p).out.cmdReady = false ∧
          (e.done = false → Port.edge e p = ⟨p.block, .busy e.pins.cmd⟩) ∧
          (e.done = true → ∃ (t : State) (r : Response), runWord e.pins.cmd p.block = .next t ∧
            t.responses = p.block.responses ++ [r] ∧
            Port.edge e p =
              ⟨{ t with responses := p.block.responses }, .responding e.pins.cmd r⟩)) ∧
      (∀ w, p.phase = .busy w → e.done = true →
        ∃ (t : State) (r : Response), runWord w p.block = .next t ∧
          t.responses = p.block.responses ++ [r] ∧
          Port.edge e p = ⟨{ t with responses := p.block.responses }, .responding w r⟩) ∧
      (p.out.rspValid = true → e.pins.rspReady = false →
        (Port.edge e p).out = p.out) ∧
      (p.out.rspValid = true → e.pins.rspReady = true →
        ∃ r, p.out.rsp = some r.word ∧ (Port.edge e p).out.cmdReady = true ∧
          (Port.edge e p).block.responses = p.block.responses ++ [r]) ∧
      (p.out.cmdReady = false → p.out.rspValid = false → e.done = true →
        (Port.edge e p).out.rspValid = true)

/-- The pins carry out exactly the transactions: whatever the pins do in each cycle and however long
each command takes, once no command is in the block, its state and the responses delivered are those
of the commands delivered and the resets, run one after another. It rests on the model's choices of
log entries 6, 9 and 12: the end of an execution as an input, what a reset leaves, and when a command's
writes take effect. -/
def Obligations.PortRefinesTheTransactions : Prop :=
  ∀ (es : List Edge) (p : Port), p.phase = .idle → (Port.run es p).phase = .idle →
    runEvents (Port.completed es p) p.block = some (Port.run es p).block

/-! ## The frame macros -/

/-- R161. -/
def Obligations.MacroCrc16ReturnsTheCrcOfItsBytes : Prop :=
  ∀ (m : List Byte) (s : State),
    ∃ t, macroCrc16 m s = some (t, crc16 m) ∧ t.buf = s.buf ∧ t.len = s.len

/-- R162: the 24 bytes of the frame, field by field. -/
def Obligations.EncodeControlV1BuildsTheFrame : Prop :=
  ∀ (m : ControlMessage) (s : State),
    let body : List Byte :=
      [m.axisX, m.axisY, m.axisZ, m.axisW, m.debugFlag,
       m.thrusterPower[0], m.thrusterPower[1], m.thrusterPower[2], m.thrusterPower[3],
       m.thrusterPower[4], m.thrusterPower[5], m.manipulatorRotation,
       m.cameraRotation[0], m.cameraRotation[1], m.cameraRotation[2],
       m.manipulatorOpenClose, m.pumpLazerButton, m.regulators,
       m.desiredDepth.extractLsb' 24 8, m.desiredDepth.extractLsb' 16 8,
       m.desiredDepth.extractLsb' 8 8, m.desiredDepth.extractLsb' 0 8]
    ∃ t, encodeControlV1 m s = some (t, some (body ++
      [(crc16 body).extractLsb' 8 8, (crc16 body).extractLsb' 0 8]))

/-- R163: the 35 bytes of the frame, field by field; the header and the version are the encoder's. -/
def Obligations.EncodeControlV2BuildsTheFrame : Prop :=
  ∀ (m : ControlMessage) (s : State),
    let body : List Byte :=
      [0xAC, 2, m.axisX, m.axisY, m.axisZ, m.axisW, m.debugFlag,
       m.thrusterPower[0], m.thrusterPower[1], m.thrusterPower[2], m.thrusterPower[3],
       m.thrusterPower[4], m.thrusterPower[5], m.thrusterPower[6], m.thrusterPower[7],
       m.thrusterPower[8], m.thrusterPower[9], m.manipulatorRotation,
       m.cameraRotation[0], m.cameraRotation[1], m.cameraRotation[2],
       m.manipulatorOpenClose, m.pumpLazerButton, m.regulators,
       m.desiredDepth.extractLsb' 24 8, m.desiredDepth.extractLsb' 16 8,
       m.desiredDepth.extractLsb' 8 8, m.desiredDepth.extractLsb' 0 8,
       m.desiredYaw.extractLsb' 24 8, m.desiredYaw.extractLsb' 16 8,
       m.desiredYaw.extractLsb' 8 8, m.desiredYaw.extractLsb' 0 8, m.cameraIndex]
    ∃ t, encodeControlV2 m s = some (t, some (body ++
      [(crc16 body).extractLsb' 8 8, (crc16 body).extractLsb' 0 8]))

/-- The round trip of Telemetry v1 (the source's property, R133): whatever the five unnamed bytes of the
frame (U4), and so for the test encoder's 0x00 too (R169, D27), every field sent comes back, and the
fields v1 does not carry are 0. The test encoder's frame has 0x00 at offsets 27 to 31. -/
def Obligations.TelemetryV1RoundTrips : Prop :=
  (∀ (m : TelemetryMessage) (unnamed : Vector Byte 5) (s u : State),
    ∃ t v frame, encodeTelemetryV1With m unnamed s = some (t, some frame) ∧ frame.length = 34 ∧
      decodeTelemetryV1 frame u =
        some (v, some ({ m with header := 0, version := 0, temperature := 0, cameraIndex := 0 },
          .noError))) ∧
    ∀ (m : TelemetryMessage) (s u : State),
      ∃ t v frame, encodeTelemetryV1 m s = some (t, some frame) ∧ frame.length = 34 ∧
        (frame.drop 27).take 5 = [0x00, 0x00, 0x00, 0x00, 0x00] ∧
        decodeTelemetryV1 frame u =
          some (v, some ({ m with header := 0, version := 0, temperature := 0, cameraIndex := 0 },
            .noError))

/-- The round trip of Telemetry v2: the header and version come back as the constants sent. -/
def Obligations.TelemetryV2RoundTrips : Prop :=
  ∀ (m : TelemetryMessage) (s u : State),
    ∃ t v frame, encodeTelemetryV2 m s = some (t, some frame) ∧ frame.length = 36 ∧
      decodeTelemetryV2 frame u =
        some (v, some ({ m with header := 0xAE, version := 2 }, .noError))

/-- A frame shorter than its version's minimum gives the default message and WrongDataSize, and one long
enough whose trailer is wrong gives the default message and WrongCrc (R166 to R168). -/
def Obligations.DecodeOfABadFrameGivesTheDefaultMessage : Prop :=
  (∀ (m : List Byte) (s : State), m.length ≤ Config.bufSize → m.length < 34 →
    ∃ t, decodeTelemetryV1 m s = some (t, some (TelemetryMessage.default, .wrongDataSize))) ∧
    (∀ (m : List Byte) (s : State), m.length ≤ Config.bufSize → m.length < 36 →
      ∃ t, decodeTelemetryV2 m s = some (t, some (TelemetryMessage.default, .wrongDataSize))) ∧
    (∀ (m : List Byte) (s : State), m.length ≤ Config.bufSize → 34 ≤ m.length →
      crc16 m ≠ 0x0000#16 →
      ∃ t, decodeTelemetryV1 m s = some (t, some (TelemetryMessage.default, .wrongCrc))) ∧
    ∀ (m : List Byte) (s : State), m.length ≤ Config.bufSize → 36 ≤ m.length →
      crc16 m ≠ 0x0000#16 →
      ∃ t, decodeTelemetryV2 m s = some (t, some (TelemetryMessage.default, .wrongCrc))

/-- R170: the version of a frame that has at least four bytes and a right trailer, and otherwise 0. -/
def Obligations.GetVersionReturnsTheVersionOrZero : Prop :=
  (∀ (m post : List Byte) (header version : Byte) (s : State),
    m = header :: version :: post → m.length + 2 ≤ Config.bufSize →
    ∃ t, getVersion (m ++ pack16 (crc16 m)) s = some (t, some version)) ∧
    (∀ (m : List Byte) (s : State), m.length < 4 →
      ∃ t, getVersion m s = some (t, some 0)) ∧
    ∀ (m : List Byte) (c : Word16) (s : State), 2 ≤ m.length → m.length + 2 ≤ Config.bufSize →
      c ≠ crc16 m → ∃ t, getVersion (m ++ pack16 c) s = some (t, some 0)
end

