-- ==== Sys2Proof/Laws/Assembler.lean ====
section
/-! SUPPORT. What the readers of the written form (30_encoding.md R69) give on what its printers print:
digits, words of a line, lines of a text. -/

namespace Sys2Proof.Machine

/-- A letter that ends no word, no line and no command, and stands in no prefix of a number. -/
def plain (c : Char) : Bool := c != ' ' && c != ';' && c != '\n' && c != 'x' && c != '-'

theorem digitValue_hexDigit (d : Nat) (h : d < 16) : digitValue (hexDigit d) = some d :=
  (by decide : ∀ d : Fin 16, digitValue (hexDigit d) = some d.val) ⟨d, h⟩

theorem plain_hexDigit (d : Nat) (h : d < 16) : plain (hexDigit d) = true :=
  (by decide : ∀ d : Fin 16, plain (hexDigit d) = true) ⟨d, h⟩

theorem digitsFrom_append (base acc : Nat) (xs ys : List Char) :
    digitsFrom base acc (xs ++ ys) =
      (digitsFrom base acc xs).bind fun a => digitsFrom base a ys := by
  induction xs generalizing acc with
  | nil => rfl
  | cons c xs ih =>
    simp only [List.cons_append, digitsFrom]
    cases digitValue c with
    | none => rfl
    | some d =>
      simp only
      split
      · exact ih _
      · rfl

theorem digitsFrom_digit (base acc d : Nat) (hb : base ≤ 16) (h : d < base) :
    digitsFrom base acc [hexDigit d] = some (acc * base + d) := by
  simp [digitsFrom, digitValue_hexDigit d (by omega), h]

/-- `k` hexadecimal digits spell the number modulo `16 ^ k`. -/
theorem digitsFrom_hexDigits (k acc n : Nat) :
    digitsFrom 16 acc (hexDigits k n) = some (acc * 16 ^ k + n % 16 ^ k) := by
  induction k generalizing acc n with
  | zero => simp [hexDigits, digitsFrom, Nat.mod_one]
  | succ k ih =>
    rw [hexDigits, digitsFrom_append, ih, Option.bind_some,
      digitsFrom_digit 16 _ _ (by omega) (by omega), Nat.pow_succ', Nat.mod_mul]
    congr 1
    ring

theorem hexDigits_length (k n : Nat) : (hexDigits k n).length = k := by
  induction k generalizing n with
  | zero => rfl
  | succ k ih => simp [hexDigits, ih]

theorem plain_hexDigits (k n : Nat) : (hexDigits k n).all plain = true := by
  induction k generalizing n with
  | zero => rfl
  | succ k ih => simp only [hexDigits, List.all_append, ih, List.all_cons, List.all_nil, Bool.and_true,
      plain_hexDigit _ (Nat.mod_lt n (by decide : 16 > 0))]

/-- A number printed in decimal is read back. -/
theorem digitsFrom_decimal (k n : Nat) (h : n < 10 ^ (k + 1)) :
    digitsFrom 10 0 (decimal k n) = some n := by
  induction k generalizing n with
  | zero =>
    rw [decimal, digitsFrom_digit 10 0 _ (by omega) (by omega)]
    congr 1
    omega
  | succ k ih =>
    rw [decimal]
    split
    · rw [digitsFrom_digit 10 0 n (by omega) (by omega)]
      simp
    · rw [digitsFrom_append, ih _ (by rw [Nat.pow_succ] at h; omega), Option.bind_some,
        digitsFrom_digit 10 _ _ (by omega) (by omega)]
      congr 1
      omega

theorem decimal_ne_nil (k n : Nat) : decimal k n ≠ [] := by
  cases k with
  | zero => simp [decimal]
  | succ k =>
    rw [decimal]
    split <;> simp

theorem plain_decimal (k n : Nat) : (decimal k n).all plain = true := by
  induction k generalizing n with
  | zero => simp [decimal, plain_hexDigit (n % 10) (by omega)]
  | succ k ih =>
    rw [decimal]
    split
    · simp [plain_hexDigit n (by omega)]
    · simp only [List.all_append, ih, List.all_cons, List.all_nil, Bool.and_true,
        plain_hexDigit (n % 10) (by omega)]

theorem numberOf_decimal (k n : Nat) (h : n < 10 ^ (k + 1)) :
    numberOf 10 (decimal k n) = some (n : Int) := by
  simp [numberOf, decimal_ne_nil, digitsFrom_decimal k n h]

theorem numberOf_hexDigits (k n : Nat) (h : n < 16 ^ (k + 1)) :
    numberOf 16 (hexDigits (k + 1) n) = some (n : Int) := by
  have hne : hexDigits (k + 1) n ≠ [] := by simp [hexDigits]
  simp [numberOf, hne, digitsFrom_hexDigits, Nat.mod_eq_of_lt h]

/-- Letters with no space among them continue the word begun. -/
theorem wordsFrom_letters (word cs rest : List Char) (h : ∀ c ∈ cs, c ≠ ' ') :
    wordsFrom word (cs ++ rest) = wordsFrom (cs.reverse ++ word) rest := by
  induction cs generalizing word with
  | nil => rfl
  | cons c cs ih =>
    have hc : (c == ' ') = false := by simpa using h c (by simp)
    simp [wordsFrom, hc, ih (c :: word) fun d hd => h d (by simp [hd])]

theorem wordsFrom_one (cs : List Char) (hne : cs ≠ []) (h : ∀ c ∈ cs, c ≠ ' ') :
    wordsFrom [] cs = [cs] := by
  have := wordsFrom_letters [] cs [] h
  simp_all [wordsFrom]

theorem wordsFrom_two (cs ds : List Char) (hc : cs ≠ []) (hd : ds ≠ []) (h : ∀ c ∈ cs, c ≠ ' ')
    (h' : ∀ c ∈ ds, c ≠ ' ') : wordsFrom [] (cs ++ ' ' :: ds) = [cs, ds] := by
  rw [wordsFrom_letters [] cs _ h]
  simp [wordsFrom, hc, wordsFrom_one ds hd h']

/-- Letters with no end of line among them continue the line begun. -/
theorem linesFrom_letters (line cs rest : List Char) (h : ∀ c ∈ cs, c ≠ '\n') :
    linesFrom line (cs ++ rest) = linesFrom (cs.reverse ++ line) rest := by
  induction cs generalizing line with
  | nil => rfl
  | cons c cs ih =>
    have hc : (c == '\n') = false := by simpa using h c (by simp)
    simp [linesFrom, hc, ih (c :: line) fun d hd => h d (by simp [hd])]

/-- Every name is the name its own spelling spells. -/
theorem AsmName.ofText_text (n : AsmName) : AsmName.ofText (AsmName.text n).toList = some n := by
  cases n with
  | core m => cases m <;> decide +kernel
  | crcRd => decide +kernel
  | lenRd => decide +kernel
  | statusRd => decide +kernel
  | capRd => decide +kernel
  | load => decide +kernel

/-- A name is one word of a line. -/
theorem AsmName.text_letters (n : AsmName) : (AsmName.text n).toList ≠ [] ∧
    ∀ c ∈ (AsmName.text n).toList, c ≠ ' ' ∧ c ≠ ';' ∧ c ≠ '\n' := by
  cases n with
  | core m => cases m <;> simp [AsmName.text, Mnemonic.text]
  | _ => simp [AsmName.text]

/-- What stands before the first `;` of a line that begins with letters other than `;`. -/
theorem takeWhile_letters (cs rest : List Char) (h : ∀ c ∈ cs, c ≠ ';') :
    (cs ++ rest).takeWhile (· != ';') = cs ++ rest.takeWhile (· != ';') := by
  rw [List.takeWhile_append_of_pos]
  intro c hc
  simpa using h c hc

/-- A line of one name. -/
theorem assembleLine_name (n : AsmName) :
    assembleLine (AsmName.text n).toList = .ofOption (assemble ⟨n, none⟩) := by
  have hn := AsmName.text_letters n
  have hc := takeWhile_letters _ [] fun c hc => (hn.2 c hc).2.1
  rw [List.append_nil, List.takeWhile_nil, List.append_nil] at hc
  rw [assembleLine, hc, wordsFrom_one _ hn.1 fun c hc => (hn.2 c hc).1]
  simp [AsmName.ofText_text]

/-- A line of a name and an operand. -/
theorem assembleLine_operand (n : AsmName) (operand : List Char) (hne : operand ≠ [])
    (h : ∀ c ∈ operand, c ≠ ' ' ∧ c ≠ ';') :
    assembleLine ((AsmName.text n).toList ++ ' ' :: operand) =
      .ofOption ((operandOf n.format operand).bind fun v => assemble ⟨n, some v⟩) := by
  have hn := AsmName.text_letters n
  have hc := takeWhile_letters operand [] fun c hc => (h c hc).2
  rw [List.append_nil, List.takeWhile_nil, List.append_nil] at hc
  rw [assembleLine, takeWhile_letters _ _ fun c hc => (hn.2 c hc).2.1,
    List.takeWhile_cons_of_pos (by decide), hc,
    wordsFrom_two _ _ hn.1 hne (fun c hc => (hn.2 c hc).1) fun c hc => (h c hc).1]
  simp [AsmName.ofText_text]

end Sys2Proof.Machine
end

