-- ==== Sys2Proof/Laws/State.lean ====
section
/-! SUPPORT. One lemma per field per update of the state. -/

namespace Sys2Proof.Machine

variable (s : State) (r : Response)

@[simp] theorem State.answer_crc : (s.answer r).crc = s.crc := rfl
@[simp] theorem State.answer_buf : (s.answer r).buf = s.buf := rfl
@[simp] theorem State.answer_ill : (s.answer r).ill = s.ill := rfl
@[simp] theorem State.answer_ovf : (s.answer r).ovf = s.ovf := rfl
@[simp] theorem State.answer_pending : (s.answer r).pending = s.pending := rfl
@[simp] theorem State.answer_responses : (s.answer r).responses = s.responses ++ [r] := rfl

@[simp] theorem State.setIll_crc : s.setIll.crc = s.crc := rfl
@[simp] theorem State.setIll_buf : s.setIll.buf = s.buf := rfl
@[simp] theorem State.setIll_ill : s.setIll.ill = true := rfl
@[simp] theorem State.setIll_ovf : s.setIll.ovf = s.ovf := rfl
@[simp] theorem State.setIll_pending : s.setIll.pending = s.pending := rfl
@[simp] theorem State.setIll_responses : s.setIll.responses = s.responses := rfl

@[simp] theorem State.setOvf_crc : s.setOvf.crc = s.crc := rfl
@[simp] theorem State.setOvf_buf : s.setOvf.buf = s.buf := rfl
@[simp] theorem State.setOvf_ill : s.setOvf.ill = s.ill := rfl
@[simp] theorem State.setOvf_ovf : s.setOvf.ovf = true := rfl
@[simp] theorem State.setOvf_pending : s.setOvf.pending = s.pending := rfl
@[simp] theorem State.setOvf_responses : s.setOvf.responses = s.responses := rfl

@[simp] theorem resetBlock_crc : (resetBlock s).crc = 0xFFFF := rfl
@[simp] theorem resetBlock_buf : (resetBlock s).buf = [] := rfl
@[simp] theorem resetBlock_ill : (resetBlock s).ill = false := rfl
@[simp] theorem resetBlock_ovf : (resetBlock s).ovf = false := rfl
@[simp] theorem resetBlock_pending : (resetBlock s).pending = s.pending := rfl
@[simp] theorem resetBlock_responses : (resetBlock s).responses = s.responses := rfl

@[simp] theorem appendOffset_eq : appendOffset s = s.buf.length := rfl

end Sys2Proof.Machine
end

