-- ==== Sys2Proof/Laws/Memory.lean ====
section
/-! SUPPORT. The laws of BUF: what a read sees after a write (20_memory.md R43 to R45), and that every
operation keeps BUF within its address space (10_state.md R24). -/

namespace Sys2Proof.Machine

theorem bufSize_range : 36 ≤ Config.bufSize ∧ Config.bufSize ≤ 65535 := by
  have h := Config.bufSizeAbove36.isLt
  unfold Config.bufSize
  omega

/-- An append, the only write any command makes, writes at the end. -/
@[simp] theorem Memory.write_length (m : Memory) (bs : List Byte) :
    Memory.write m m.length bs = m ++ bs := by
  simp [Memory.write]

theorem Memory.length_write (m : Memory) (off : Nat) (bs : List Byte) (h : off ≤ m.length) :
    (Memory.write m off bs).length = max m.length (off + bs.length) := by
  simp only [Memory.write, List.length_append, List.length_take, List.length_drop]
  omega

/-- A byte below a write is unchanged. -/
theorem Memory.byte_write_below (m : Memory) (off a : Nat) (bs : List Byte) (h : off ≤ m.length)
    (ha : a < off) : Memory.byte (Memory.write m off bs) a = Memory.byte m a := by
  simp only [Memory.byte, Memory.write]
  rw [List.append_assoc, List.getElem?_append_left (by simp; omega), List.getElem?_take_of_lt ha]

/-- A byte of a write is the byte written. -/
theorem Memory.byte_write_at (m : Memory) (off i : Nat) (bs : List Byte) (h : off ≤ m.length)
    (hi : i < bs.length) : Memory.byte (Memory.write m off bs) (off + i) = bs[i]? := by
  have hl : (m.take off).length = off := by simp; omega
  simp only [Memory.byte, Memory.write]
  rw [List.append_assoc, List.getElem?_append_right (by omega), hl, Nat.add_sub_cancel_left,
    List.getElem?_append_left hi]

/-- A byte above a write is unchanged. -/
theorem Memory.byte_write_above (m : Memory) (off a : Nat) (bs : List Byte) (h : off ≤ m.length)
    (ha : off + bs.length ≤ a) : Memory.byte (Memory.write m off bs) a = Memory.byte m a := by
  have hl : (m.take off).length = off := by simp; omega
  simp only [Memory.byte, Memory.write]
  rw [List.getElem?_append_right (by simp [hl]; omega)]
  simp only [List.length_append, hl, List.getElem?_drop]
  congr 1
  omega

/-- The bytes of a read, and when it is admitted (R41). -/
theorem Memory.read_eq_some (m : Memory) (off n : Nat) (bs : List Byte) :
    Memory.read m off n = some bs ↔ off + n ≤ m.length ∧ bs = (m.drop off).take n := by
  unfold Memory.read
  split <;> simp_all [eq_comm]

theorem Memory.read_eq_none (m : Memory) (off n : Nat) :
    Memory.read m off n = none ↔ m.length < off + n := by
  simp [Memory.read]

/-- A one-byte read is the byte at the offset. -/
theorem Memory.read_one (m : Memory) (off : Nat) (b : Byte) (h : Memory.byte m off = some b) :
    Memory.read m off 1 = some [b] := by
  obtain ⟨hlt, rfl⟩ := List.getElem?_eq_some_iff.mp h
  rw [Memory.read_eq_some]
  refine ⟨by omega, ?_⟩
  rw [List.drop_eq_getElem_cons hlt, List.take_succ_cons, List.take_zero]

/-- A read of what was just written gives the bytes written (R44). -/
theorem Memory.read_write (m : Memory) (off : Nat) (bs : List Byte) (h : off ≤ m.length) :
    Memory.read (Memory.write m off bs) off bs.length = some bs := by
  rw [Memory.read_eq_some, Memory.length_write m off bs h]
  refine ⟨by omega, ?_⟩
  have hl : (m.take off).length = off := by simp; omega
  simp only [Memory.write, List.append_assoc]
  rw [List.drop_append_of_le_length (by omega), List.drop_of_length_le (by omega)]
  simp

/-- After reset BUF lies within its address space (R211). -/
theorem Memory.wf_reset : Memory.wf State.reset.buf = true := by
  simp [Memory.wf, State.reset]

/-- An append that fits keeps BUF within its address space. -/
theorem Memory.wf_write (m : Memory) (off : Nat) (bs : List Byte) (h : off ≤ m.length)
    (hm : Memory.wf m = true) (hfit : off + bs.length ≤ Config.bufSize) :
    Memory.wf (Memory.write m off bs) = true := by
  simp only [Memory.wf, decide_eq_true_eq] at *
  rw [Memory.length_write m off bs h]
  omega

/-- CLR and reset leave an empty BUF, which lies within its address space. -/
theorem Memory.wf_nil : Memory.wf [] = true := by simp [Memory.wf]

/-- As pairs of address and byte, BUF has one entry for each offset below LEN, in rising order. -/
theorem Memory.cellsFrom_addresses (m : Memory) (a : Nat) :
    (Memory.cellsFrom a m).map Prod.fst = List.range' a m.length := by
  induction m generalizing a with
  | nil => rfl
  | cons b m ih => simp [Memory.cellsFrom, ih, List.range'_succ]

theorem Memory.cells_rising (m : Memory) :
    ((Memory.cells m).map Prod.fst).Pairwise (· < ·) := by
  rw [Memory.cells, Memory.cellsFrom_addresses]
  exact List.pairwise_lt_range'

/-- Equal cells are equal buffers: BUF has one form as data. -/
theorem Memory.cellsFrom_injective (m n : Memory) (a : Nat)
    (h : Memory.cellsFrom a m = Memory.cellsFrom a n) : m = n := by
  induction m generalizing a n with
  | nil => cases n with
    | nil => rfl
    | cons _ _ => cases h
  | cons b m ih => cases n with
    | nil => cases h
    | cons c n =>
      simp only [Memory.cellsFrom, List.cons.injEq, Prod.mk.injEq, true_and] at h
      rw [h.1, ih n (a + 1) h.2]

end Sys2Proof.Machine
end

