-- ==== Sys2Proof/Laws/Ops.lean ====
section
/-! SUPPORT. What each shared operation can do, once. -/

namespace Sys2Proof.Machine

/-- Responding leaves the state as it is given, with one response more. -/
theorem respond_eq (d : Word32) (e : ErrorCode) (f : FaultCode) (s : State) :
    respond d e f s = .next (s.answer ⟨d, e, f⟩) := rfl

theorem illegal_eq (s : State) : illegal s = .next (s.setIll.answer ⟨0, .noError, .ill⟩) := rfl

theorem overflow_eq (s : State) : overflow s = .next (s.setOvf.answer ⟨0, .noError, .ovf⟩) := rfl

/-- An append that fits: the field stands at the end of BUF and the command goes on. -/
theorem append_fits (cap : Nat) (bs : List Byte) (s : State)
    (done : State → Host.Outcome State Fault Refusal) (h : s.buf.length + bs.length ≤ cap) :
    append cap bs s done = done { s with buf := s.buf ++ bs } := by
  simp [append, Nat.not_lt.mpr h]

/-- An append that does not fit is the overflow fault and nothing else. -/
theorem append_overflows (cap : Nat) (bs : List Byte) (s : State)
    (done : State → Host.Outcome State Fault Refusal) (h : cap < s.buf.length + bs.length) :
    append cap bs s done = overflow s := by
  simp [append, h]

theorem put_fits (cap : Nat) (bs : List Byte) (s : State) (h : s.buf.length + bs.length ≤ cap) :
    put cap bs s = .next (({ s with buf := s.buf ++ bs } : State).answer ⟨0, .noError, .none⟩) :=
  append_fits cap bs s _ h

theorem put_overflows (cap : Nat) (bs : List Byte) (s : State)
    (h : cap < s.buf.length + bs.length) : put cap bs s = overflow s :=
  append_overflows cap bs s _ h

theorem putCrc_fits (cap : Nat) (s : State) (h : s.buf.length + 2 ≤ cap) :
    putCrc cap s =
      .next (({ s with crc := crc16 s.buf, buf := s.buf ++ pack16 (crc16 s.buf) } : State).answer
        ⟨data16 (crc16 s.buf), .noError, .none⟩) :=
  append_fits cap (pack16 (crc16 s.buf)) s _ h

theorem putCrc_overflows (cap : Nat) (s : State) (h : cap < s.buf.length + 2) :
    putCrc cap s = overflow s :=
  append_overflows cap (pack16 (crc16 s.buf)) s _ h

/-- The end of a GET: one response, and no other change. -/
theorem respondField_eq (field : Option Word32) (s : State) :
    respondField field s =
      .next (s.answer (match field with
        | some v => ⟨v, .noError, .none⟩
        | none => ⟨0, .wrongDataSize, .none⟩)) := by
  cases field <;> rfl

/-- CHK on a frame too short, for the caller or for a trailer. -/
theorem execChk_short (k : Word16) (s : State) (h : s.buf.length < k.toNat ∨ s.buf.length < 2) :
    execChk k s = .next (s.answer ⟨0, .wrongDataSize, .none⟩) := if_pos h

/-- CHK on a frame long enough. -/
theorem execChk_long (k : Word16) (s : State) (h : ¬(s.buf.length < k.toNat ∨ s.buf.length < 2)) :
    execChk k s =
      .next (({ s with crc := crc16 (covered s.buf) } : State).answer
        ⟨0, if trailer s.buf = some (crc16 (covered s.buf)) then .noError else .wrongCrc,
          .none⟩) := if_neg h

/-- The last two bytes of a buffer that ends in a packed 16-bit value. -/
theorem trailer_append_pack16 (m : Memory) (c : Word16) :
    trailer (m ++ pack16 c) = some c ∧ covered (m ++ pack16 c) = m := by
  have h2 : (m ++ pack16 c).length - 2 = m.length := by simp [pack16]
  refine ⟨?_, by rw [covered, h2]; simp⟩
  have h := Memory.read_write m m.length (pack16 c) (Nat.le_refl _)
  rw [Memory.write_length] at h
  have hp : (pack16 c).length = 2 := rfl
  rw [trailer, h2, ← hp, h]
  simp only [Option.bind_some, pack16, unpack16, Option.some.injEq]
  ext i hi
  simp only [BitVec.getElem_append, BitVec.getElem_extractLsb', BitVec.getLsbD_eq_getElem?_getD]
  split <;> simp_all

end Sys2Proof.Machine
end

