-- ==== Sys2Proof/Laws/PerInstr.lean ====
section
/-! SUPPORT. The family OperandInRange: the written form of every command has its operand in the range
of its format (30_encoding.md R63, R69), one lemma per constructor. -/

namespace Sys2Proof.Laws.OperandInRange

/-- The written form of a command is one the assembler takes (R69). -/
def Statement (i : Instr) : Prop := i.wellFormed = true

/-- A number of a range's own width lies in it. -/
theorem toNat_in_range (w : Nat) (b : BitVec w) :
    (0 : Int) ≤ (b.toNat : Int) ∧ (b.toNat : Int) ≤ 2 ^ w - 1 := by
  have h : (b.toNat : Int) < 2 ^ w := by exact_mod_cast b.isLt
  omega

theorem crcInit : Statement .crcInit := rfl

theorem crcUpd (b : Byte) : Statement (.crcUpd b) := by
  have h := toNat_in_range 8 b
  exact decide_eq_true h

theorem putU8 (b : Byte) : Statement (.putU8 b) := by
  have h := toNat_in_range 8 b
  exact decide_eq_true h

theorem putI8 (b : Byte) : Statement (.putI8 b) := by
  have h : -128 ≤ b.toInt ∧ b.toInt ≤ 127 := by
    have hl := BitVec.le_toInt b
    have hu := BitVec.toInt_lt (x := b)
    omega
  exact decide_eq_true h

theorem putF32 (p : Word32) : Statement (.putF32 p) := by
  have h := toNat_in_range 32 p
  exact decide_eq_true h

theorem putCrc : Statement .putCrc := rfl

theorem getU8 (o : Word16) : Statement (.getU8 o) := by
  have h := toNat_in_range 16 o
  exact decide_eq_true h

theorem getI8 (o : Word16) : Statement (.getI8 o) := by
  have h := toNat_in_range 16 o
  exact decide_eq_true h

theorem getF32 (o : Word16) : Statement (.getF32 o) := by
  have h := toNat_in_range 16 o
  exact decide_eq_true h

theorem chk (k : Word16) : Statement (.chk k) := by
  have h := toNat_in_range 16 k
  exact decide_eq_true h

theorem clr : Statement .clr := rfl

theorem rdSr (r : StatusReg) : Statement (.rdSr r) := by
  cases r <;> rfl

end Sys2Proof.Laws.OperandInRange
end

