-- ==== Sys2Proof/Laws/Step.lean ====
section
/-! SUPPORT. How a step, a transaction and a rising edge unfold. -/

namespace Sys2Proof.Machine

theorem step_idle (s : State) (h : s.pending = []) : step s = .next s := by
  simp [step, takeNext, h]

theorem step_event (s : State) (e : HostEvent) (rest : List HostEvent)
    (h : s.pending = e :: rest) : step s = handle e { s with pending := rest } := by
  simp [step, takeNext, h]

theorem handle_reset (s : State) : handle .reset s = .next (resetBlock s) := rfl

theorem handle_resetDuring (w : CommandWord) (s : State) :
    handle (.resetDuring w) s = .next (resetBlock s) := rfl

theorem runWord_legal (w : CommandWord) (i : Instr) (s : State) (h : decode w = .ok i) :
    runWord w s = exec i s := by
  simp [runWord, h]

theorem runWord_illegal (w : CommandWord) (e : Illegal) (s : State) (h : decode w = .error e) :
    runWord w s = illegal s := by
  simp [runWord, h]

/-- A transaction is a word run to a next state that ends with the response just given. -/
theorem transact_of_answer (w : CommandWord) (s t : State) (r : Response)
    (h : runWord w s = .next (t.answer r)) : transact w s = some (t.answer r, r) := by
  simp [transact, h]

theorem runEvents_append (es es' : List HostEvent) (s : State) :
    runEvents (es ++ es') s = (runEvents es s).bind (runEvents es') := by
  induction es generalizing s with
  | nil => rfl
  | cons e es ih =>
    simp only [List.cons_append, runEvents]
    cases handle e s with
    | next t => exact ih t
    | fault _ => rfl
    | refused _ => rfl

theorem withFetchWord_pending (s : State) (nbits w : Nat) :
    (s.withFetchWord nbits w).pending = .command (tableWord nbits w) :: s.pending := rfl

end Sys2Proof.Machine
end

