-- ==== Sys2Proof/Tests/Slice0.lean ====
section
/-! SUPPORT. Tests. Expected values are the spec's: words from the opcode map (30_encoding.md R64, R66),
results from 95_test_vectors.md parts 2 and 3 and the examples of the command rules. Then, for every
statement with hypotheses, a concrete state and operands that meet them (`witness_`). -/

namespace Sys2Proof.Tests

open Sys2Proof.Machine

/-! ## Helpers -/

/-- A state with these bytes in BUF, this CRC, and nothing else set. -/
def st (crc : Word16) (buf : List Byte) : State := ⟨crc, buf, false, false, [], []⟩

/-- A state with `n` bytes in BUF. -/
def filled (n : Nat) : State := st 0xFFFF (List.replicate n 0)

/-- A state with one event pending. -/
def given (e : HostEvent) (s : State) : State := { s with pending := [e] }

/-- The next state, if there is one. -/
def nextOf (o : Host.Outcome State Fault Refusal) : Option State :=
  match o with
  | .next t => some t
  | .fault _ => none
  | .refused _ => none

/-- CRC, BUF and the response words of the next state. -/
def seen (o : Host.Outcome State Fault Refusal) : Option (Word16 × List Byte × List ResponseWord) :=
  (nextOf o).map fun t => (t.crc, t.buf, t.responses.map Response.word)

/-- The sticky flags of the next state, OVF then ILL. -/
def flagsOf (o : Host.Outcome State Fault Refusal) : Option (Bool × Bool) :=
  (nextOf o).map fun t => (t.ovf, t.ill)

/-- Whether a word is legal. -/
def legal (w : CommandWord) : Bool := (decode w).toOption.isSome

/-! ## Well-formedness: an ill-formed line for each check (R69) -/

theorem test_wf_operand_missing : SourceLine.wellFormed ⟨.core .putU8, none⟩ = false := by decide
theorem test_wf_operand_extra : SourceLine.wellFormed ⟨.core .clr, some 0⟩ = false := by decide
theorem test_wf_alias_operand_extra : SourceLine.wellFormed ⟨.crcRd, some 0⟩ = false := by decide
theorem test_wf_imm8_high : SourceLine.wellFormed ⟨.core .crcUpd, some 256⟩ = false := by decide
theorem test_wf_imm8_low : SourceLine.wellFormed ⟨.load, some (-1)⟩ = false := by decide
theorem test_wf_simm8_high : SourceLine.wellFormed ⟨.core .putI8, some 128⟩ = false := by decide
theorem test_wf_simm8_low : SourceLine.wellFormed ⟨.core .putI8, some (-129)⟩ = false := by decide
theorem test_wf_imm32_high :
    SourceLine.wellFormed ⟨.core .putF32, some 4294967296⟩ = false := by decide
theorem test_wf_off16_high : SourceLine.wellFormed ⟨.core .chk, some 65536⟩ = false := by decide
theorem test_wf_srn_high : SourceLine.wellFormed ⟨.core .rdSr, some 4⟩ = false := by decide
theorem test_wf_accepts : SourceLine.wellFormed ⟨.core .putI8, some (-128)⟩ = true := by decide

/-! ## Decoding: every constructor, from a word written out from R64 (op in bits 39:32) -/

theorem test_decode_crcInit : decode 0x1000000000#40 = .ok .crcInit := by decide
theorem test_decode_crcUpd : decode 0x11000000FF#40 = .ok (.crcUpd 0xFF) := by decide
theorem test_decode_putU8 : decode 0x20000000AC#40 = .ok (.putU8 0xAC) := by decide
theorem test_decode_putI8_positive : decode 0x210000007F#40 = .ok (.putI8 127) := by decide
theorem test_decode_putI8_negative : decode 0x21FFFFFF9C#40 = .ok (.putI8 (-100)) := by decide
theorem test_decode_putF32 : decode 0x22C0200000#40 = .ok (.putF32 0xC0200000) := by decide
theorem test_decode_putCrc : decode 0x2300000000#40 = .ok .putCrc := by decide
theorem test_decode_getU8 : decode 0x3000000016#40 = .ok (.getU8 22) := by decide
theorem test_decode_getI8 : decode 0x3100000004#40 = .ok (.getI8 4) := by decide
theorem test_decode_getF32 : decode 0x320000FFFF#40 = .ok (.getF32 65535) := by decide
theorem test_decode_chk : decode 0x3300000022#40 = .ok (.chk 34) := by decide
theorem test_decode_clr : decode 0x4000000000#40 = .ok .clr := by decide
theorem test_decode_rdSr : decode 0x4100000002#40 = .ok (.rdSr .status) := by decide
/-- The word of PUT.I8 -100 bit by bit (R62, R64): op 0010 0001, then the sign extension of 1001 1100. -/
theorem test_decode_bits :
    decode 0b0010000111111111111111111111111110011100#40 = .ok (.putI8 (-100)) := by decide
/-- The illegal words of 95_test_vectors.md. -/
theorem test_decode_illegal :
    [0x0000000000#40, 0xFFFFFFFFFF#40, 0x1000000001#40, 0x1200000000#40, 0x2000000100#40,
      0x2100000080#40, 0x21FFFFFF7F#40, 0x2400000000#40, 0x2300000001#40, 0x3200010000#40,
      0x3400000000#40, 0x4100000004#40, 0x4200000000#40].all (fun w => !legal w) = true := by
  decide
theorem test_decode_names_the_reason :
    decode 0x4100000004#40 = .error (.argument .rdSr 4) := by decide
theorem test_decodeTableWord : decodeTableWord 40 0x3300000004 = some (.chk 4) := by decide
theorem test_encode_putI8 : encode (.putI8 (-100)) = 0x21FFFFFF9C#40 := by decide

/-! ## The checksum functions (R90 to R92) -/

theorem test_crcRound_top_bit : crcRound 0x8001 = 0x1023 := by decide
theorem test_crcRound_no_top_bit : crcRound 0x7FFF = 0xFFFE := by decide
theorem test_crcByte_zero : crcByte 0xFFFF 0x00 = 0xE1F0 := by decide +kernel
theorem test_crcByte_high_byte : crcByte 0x0000 0x80 = 0x9188 := by decide +kernel
theorem test_crc16_check_value :
    crc16 [0x31, 0x32, 0x33, 0x34, 0x35, 0x36, 0x37, 0x38, 0x39] = 0x29B1 := by decide +kernel
theorem test_crc16_handshake : crc16 [0xAA, 0xFE] = 0xE16B := by decide +kernel

/-! ## One step of each command -/

theorem test_crcInit : seen (exec .crcInit (st 0x1234 [1])) = some (0xFFFF, [1], [0]) := by decide
theorem test_crcUpd : seen (exec (.crcUpd 0x00) (st 0xE1F0 [])) = some (0x1D0F, [], [0]) := by
  decide +kernel
theorem test_putU8 : seen (exec (.putU8 0xAC) (st 0xFFFF [])) = some (0xFFFF, [0xAC], [0]) := by
  decide
theorem test_putI8 :
    seen (exec (.putI8 (-100)) (st 0xFFFF [0x64])) = some (0xFFFF, [0x64, 0x9C], [0]) := by decide
/-- At an offset that is no multiple of four. -/
theorem test_putF32 :
    seen (exec (.putF32 0x01020304) (st 0 [9, 9, 9])) = some (0, [9, 9, 9, 1, 2, 3, 4], [0]) := by
  decide
theorem test_putCrc :
    seen (exec .putCrc (st 0x1234 [0xAA, 0x02])) =
      some (0xCFF8, [0xAA, 0x02, 0xCF, 0xF8], [0x00000CFF8]) := by decide +kernel
theorem test_putCrc_empty :
    seen (exec .putCrc (st 0 [])) = some (0xFFFF, [0xFF, 0xFF], [0x00000FFFF]) := by
  decide +kernel
theorem test_getU8 :
    seen (exec (.getU8 3) (st 0 [0xAA, 2, 0xCF, 0xF8])) =
      some (0, [0xAA, 2, 0xCF, 0xF8], [0x0000000F8]) := by decide
theorem test_getU8_past_len :
    seen (exec (.getU8 4) (st 0 [0xAA, 2, 0xCF, 0xF8])) =
      some (0, [0xAA, 2, 0xCF, 0xF8], [0x200000000]) := by decide
theorem test_getI8 :
    seen (exec (.getI8 0) (st 0 [0xAA, 2, 0xCF, 0xF8])) =
      some (0, [0xAA, 2, 0xCF, 0xF8], [0x0FFFFFFAA]) := by decide
theorem test_getF32 :
    seen (exec (.getF32 1) (st 0 [0x3F, 0x80, 0, 0, 0xC0])) =
      some (0, [0x3F, 0x80, 0, 0, 0xC0], [0x0800000C0]) := by decide
theorem test_getF32_no_wrap :
    seen (exec (.getF32 65535) (st 0 [0xAA, 2, 0xCF, 0xF8])) =
      some (0, [0xAA, 2, 0xCF, 0xF8], [0x200000000]) := by decide
theorem test_chk_wrong_crc :
    seen (exec (.chk 4) (st 0 [0xAA, 3, 0xCF, 0xF8])) =
      some (0xDFD9, [0xAA, 3, 0xCF, 0xF8], [0x100000000]) := by decide +kernel
/-- A short frame with a bad trailer is WrongDataSize, CRC unchanged. -/
theorem test_chk_size_first :
    seen (exec (.chk 4) (st 0x1111 [0xAA, 2, 0xCF])) =
      some (0x1111, [0xAA, 2, 0xCF], [0x200000000]) := by decide +kernel
theorem test_clr_keeps_flags :
    flagsOf (exec .clr { st 5 [1, 2] with ovf := true }) = some (true, false) := by decide
theorem test_clr : seen (exec .clr (st 5 [1, 2])) = some (5, [], [0]) := by decide
theorem test_rdSr_status :
    seen (exec (.rdSr .status) { st 0 [] with ill := true, ovf := true }) =
      some (0, [], [0x000000003]) := by decide
theorem test_rdSr_len : seen (exec (.rdSr .len) (st 0 [7, 7, 7])) = some (0, [7, 7, 7], [3]) := by
  decide
/-- `BUF_SIZE` = 256 (95_test_vectors.md): a float past the end is refused whole, and a byte fits. -/
theorem test_put_overflow :
    (nextOf (put 256 (packF32 0x3F800000) (filled 253))).map
      (fun t => (t.buf.length, t.ovf, t.responses.map Response.word)) =
        some (253, true, [0x800000000]) := by decide +kernel
theorem test_put_last_fit :
    (nextOf (put 256 (packF32 0x3F800000) (filled 252))).map
      (fun t => (t.buf.length, t.ovf, t.responses.map Response.word)) =
        some (256, false, [0]) := by decide +kernel
/-- `BUF_SIZE` = 36, program P7 command 37: PUT.CRC of 33 bytes 00 to 20 gives 8363. -/
theorem test_putCrc_P7 :
    (nextOf (putCrc 36 (st 0xFFFF ((List.range 33).map (BitVec.ofNat 8))))).map
      (fun t => (t.buf.length, t.crc)) = some (35, 0x8363) := by decide +kernel

/-! ## Steps of the machine -/

theorem test_step_illegal :
    flagsOf (step (given (.command 0x0000000000) (st 7 [1]))) = some (false, true) := by decide
theorem test_step_illegal_response :
    seen (step (given (.command 0x4000000001) (st 7 [1]))) = some (7, [1], [0x400000000]) := by
  decide
theorem test_step_reset :
    seen (step (given .reset (st 7 [1]))) = some (0xFFFF, [], []) := by decide
theorem test_step_resetDuring :
    seen (step (given (.resetDuring 0x20000000AC) (st 7 [1]))) = some (0xFFFF, [], []) := by decide
theorem test_step_fetch :
    seen (step (State.reset.withFetchWord 40 0x2201020304)) =
      some (0xFFFF, [1, 2, 3, 4], [0]) := by decide
/-- A response held until the host takes it, then delivered (R75). -/
theorem test_port_delivers :
    (Port.run
      [⟨⟨false, true, 0x4100000000, false⟩, false⟩, ⟨⟨false, false, 0, false⟩, true⟩,
        ⟨⟨false, false, 0, true⟩, false⟩] Port.reset).block.responses.map Response.word =
      [0x00000FFFF] := by decide
/-- Reset in the cycle a response could be taken: it is never delivered (R213). -/
theorem test_port_reset_abandons :
    Port.run
      [⟨⟨false, true, 0x20000000AC, false⟩, true⟩, ⟨⟨true, false, 0, true⟩, false⟩] Port.reset =
      Port.reset := by decide

/-! ## Macros and the written form -/

theorem test_getVersion :
    (getVersion [0xAA, 0x02, 0xCF, 0xF8] State.reset).map Prod.snd = some (some 2) := by
  decide +kernel
theorem test_getVersion_bad_crc :
    (getVersion [0xAA, 0x03, 0xCF, 0xF8] State.reset).map Prod.snd = some (some 0) := by
  decide +kernel
/-- 95_test_vectors.md S3: 32 bytes of 0x00 and the trailer F1 4C. -/
theorem test_encodeTelemetryV1_S3 :
    (encodeTelemetryV1 TelemetryMessage.default State.reset).map Prod.snd =
      some (some (List.replicate 32 0x00 ++ [0xF1, 0x4C])) := by decide +kernel
theorem test_written : written (.putI8 (-100)) = "PUT.I8 -100" := by decide +kernel
theorem test_written_f32 : written (.putF32 0xC0200000) = "PUT.F32 0xC0200000" := by decide +kernel
theorem test_encodingText : encodingText (.putI8 (-100)) = "21FFFFFF9C" := by decide +kernel
theorem test_assemble_alias : assemble ⟨.statusRd, none⟩ = some (.rdSr .status) := by decide
theorem test_assembleText :
    assembleText "PUT.I8 -100 ; a comment\n\nLOAD 0xAC\nPUT.F32 0xC0200000\nCRC.RD" =
      some [.putI8 (-100), .putU8 0xAC, .putF32 0xC0200000, .rdSr .crc] := by decide +kernel
theorem test_assembleText_errors :
    ["PUT.I8 128", "PUT.I8 0x10", "PUT.F32 0xC020", "PUT.U8 256", "CLR 0", "GET.U8", "NOP"].all
      (fun l => assembleText l == none) = true := by decide +kernel
theorem test_assemble_out_of_range : assemble ⟨.core .putI8, some 128⟩ = none := by decide

/-! ## Witnesses: for each statement with hypotheses, values at the edge of each clause's range -/

theorem filled_length (n : Nat) : (filled n).buf.length = n := by simp [filled, st]

theorem witness_SingleBitFlipChangesCrc16 : (0 : Nat) < 8 ∧ 7 < 8 := by decide

theorem witness_SingleByteChangeChangesCrc16 : (0x00 : Byte) ≠ 0xFF := by decide

theorem witness_PackAndUnpackAreInverse :
    [0x9C#8].length = 1 ∧ [0xC0#8, 0x20, 0x00, 0x00].length = 4 := by decide

theorem witness_CrcInitLoadsTheInitialRegister : (1 : Word32) ≠ 0 := by decide

theorem witness_CrcUpdFoldsOneByteIntoTheRegister :
    ∀ i ∈ [Instr.crcUpd 0x31, .putU8 1, .crcUpd 0x32, .clr],
      writesCrc i = true → ∃ b, i = .crcUpd b := by
  simp [writesCrc]

/-- The last append that fits and the first that does not, for a field of `n` bytes. -/
theorem append_edges (n : Nat) (h : n ≤ 36) (hn : 1 ≤ n) :
    (filled (Config.bufSize - n)).buf.length + n ≤ Config.bufSize ∧
      Config.bufSize < (filled (Config.bufSize - n + 1)).buf.length + n := by
  have := bufSize_range
  simp only [filled_length]
  omega

theorem witness_PutU8AppendsOneByte :
    (filled (Config.bufSize - 1)).buf.length + 1 ≤ Config.bufSize ∧
      Config.bufSize < (filled (Config.bufSize - 1 + 1)).buf.length + 1 :=
  append_edges 1 (by omega) (by omega)

theorem witness_PutI8AppendsOneSignedByte :
    (0x80#8).toInt < 0 ∧ 0 ≤ (0x7F#8).toInt ∧
      (filled (Config.bufSize - 1)).buf.length + 1 ≤ Config.bufSize ∧
      Config.bufSize < (filled (Config.bufSize - 1 + 1)).buf.length + 1 :=
  ⟨by decide, by decide, append_edges 1 (by omega) (by omega)⟩

theorem witness_PutF32AppendsFourBytesBigEndian :
    (filled (Config.bufSize - 4)).buf.length + 4 ≤ Config.bufSize ∧
      Config.bufSize < (filled (Config.bufSize - 4 + 1)).buf.length + 4 :=
  append_edges 4 (by omega) (by omega)

/-- The state PUT.CRC leaves from reset. -/
def afterPutCrc : State := (st 0xFFFF [0xFF, 0xFF]).answer ⟨0xFFFF, .noError, .none⟩

theorem exec_putCrc_reset : exec .putCrc State.reset = .next afterPutCrc :=
  putCrc_fits Config.bufSize State.reset (by have := bufSize_range; simp [State.reset]; omega)

theorem witness_PutCrcAppendsTheCrcOfTheFrame :
    ((filled (Config.bufSize - 2)).buf.length + 2 ≤ Config.bufSize ∧
        Config.bufSize < (filled (Config.bufSize - 2 + 1)).buf.length + 2) ∧
      State.reset.buf = [] ∧ State.reset.buf.length + 4 ≤ Config.bufSize ∧
      exec .putCrc State.reset = .next afterPutCrc ∧
      (2 : Word16).toNat ≤ afterPutCrc.buf.length :=
  ⟨append_edges 2 (by omega) (by omega), rfl,
    by have := bufSize_range; simp [State.reset]; omega, exec_putCrc_reset, by decide⟩

theorem witness_AppendIsAllOrNothingAndTouchesNothingElse :
    appends (.putF32 0) = some 4 ∧ appends .putCrc = some 2 ∧
      ((filled (Config.bufSize - 4)).buf.length + 4 ≤ Config.bufSize ∧
        Config.bufSize < (filled (Config.bufSize - 4 + 1)).buf.length + 4) ∧
      Instr.putF32 0 ≠ .putCrc ∧
      (0 < appendOffset (filled 1) ∧ appendOffset (filled 1) + 4 ≤ 5) :=
  ⟨rfl, rfl, append_edges 4 (by omega) (by omega), nofun, by decide⟩

theorem witness_GetU8ReadsOneByteZeroExtended :
    (3 : Word16).toNat < (filled 4).buf.length ∧ (filled 4).buf.length ≤ (4 : Word16).toNat := by
  decide

theorem witness_GetI8ReadsOneByteSignExtended :
    (3 : Word16).toNat < (filled 4).buf.length ∧ (filled 4).buf.length ≤ (4 : Word16).toNat := by
  decide

theorem witness_GetF32ReadsFourBytesBigEndian :
    (1 : Word16).toNat + 4 ≤ (filled 5).buf.length ∧
      (filled 5).buf.length < (2 : Word16).toNat + 4 := by decide

theorem witness_ChkTestsLengthThenTrailer :
    (filled 3).buf.length < (4 : Word16).toNat ∧ (filled 1).buf.length < 2 ∧
      (4 : Word16).toNat ≤ (filled 4).buf.length ∧ (filled 4).buf = [0, 0] ++ [0, 0] ∧
      (st 0 [0xFF, 0xFF]).buf.length = 2 ∧ (2 : Word16).toNat ≤ 2 ∧
      (st 1 [0xFF, 0xFF]).buf = (st 0 [0xFF, 0xFF]).buf := by decide

theorem witness_ChkAgreesWithTheResidueTest :
    (2 : Word16).toNat ≤ (filled 2).buf.length ∧ 2 ≤ (filled 2).buf.length := by decide

/-- The handshake frame AA 02 with its second byte changed to 03, its trailer left as it was. -/
theorem witness_ChkCatchesAnyOneByteChangeBeforeTheTrailer :
    (0x02 : Byte) ≠ 0x03 ∧
      (st 0 [0xAA, 0x03, 0xCF, 0xF8]).buf =
        [0xAA] ++ [0x03] ++ [] ++ pack16 (crc16 ([0xAA] ++ [0x02] ++ [])) ∧
      (4 : Word16).toNat ≤ (st 0 [0xAA, 0x03, 0xCF, 0xF8]).buf.length := by decide +kernel

theorem witness_GetsAndChkAlwaysRespondAndKeepTheBuffer :
    Instr.chk 0xFFFF ∈ [Instr.getU8 0xFFFF, .getI8 0xFFFF, .getF32 0xFFFF, .chk 0xFFFF] := by decide

theorem witness_ClrEmptiesTheBufferAndKeepsTheFlags :
    exec .clr (st 0 [1]) = .next ((st 0 []).answer ⟨0, .noError, .none⟩) ∧
      Instr.getU8 0 ∈ [Instr.getU8 0, .getI8 0, .getF32 0, .chk 0] := ⟨rfl, by decide⟩

theorem witness_RdSrReturnsTheStatusRegister : 4 ≤ (4 : Word32).toNat := by decide

theorem witness_IllegalWordSetsIllAndNothingElse :
    decode 0#40 = .error (.opcode 0) ∧ (given (.command 0) (st 0 [])).pending = .command 0 :: [] :=
  ⟨by decide, rfl⟩

theorem witness_OverflowingPutSetsOvfAndNothingElse :
    appends (.putF32 0) = some 4 ∧
      Config.bufSize < (filled (Config.bufSize - 1)).buf.length + 4 ∧
      (filled (Config.bufSize - 1)).buf.length + 1 ≤ Config.bufSize ∧
      exec (.putF32 0) (filled (Config.bufSize - 1)) =
        overflow (filled (Config.bufSize - 1)) := by
  have h := bufSize_range
  have h1 := filled_length (Config.bufSize - 1)
  exact ⟨rfl, by omega, by omega, put_overflows _ _ _ (by rw [h1]; simp [packF32]; omega)⟩

/-- The state of `filled 1` with ILL set and a reset pending, and what the step leaves. -/
theorem witness_OnlyResetClearsTheStickyFlags :
    step (given .reset { filled 1 with ill := true }) = .next State.reset ∧
      (given .reset { filled 1 with ill := true }).ill = true ∧ State.reset.ill = false ∧
      (given .reset { filled 1 with ill := true }).pending = .reset :: [] := ⟨rfl, rfl, rfl, rfl⟩

theorem witness_CrcIsWrittenAndReadOnlyByItsCommands :
    exec .clr (st 7 [1]) = .next ((st 7 []).answer ⟨0, .noError, .none⟩) ∧
      writesCrc .clr = false ∧ (∀ b, Instr.chk 0 ≠ .crcUpd b) ∧ Instr.chk 0 ≠ .rdSr .crc :=
  ⟨rfl, rfl, nofun, nofun⟩

theorem witness_EveryCommandLeavesUnchangedWhatItDoesNotWrite :
    (exec .clr (st 7 [1]) = .next ((st 7 []).answer ⟨0, .noError, .none⟩)) ∧
      (exec (.rdSr .crc) (st 7 [1]) = .next ((st 7 [1]).answer ⟨7, .noError, .none⟩) ∧
        writesCrc (.rdSr .crc) = false ∧ appends (.rdSr .crc) = none ∧ Instr.rdSr .crc ≠ .clr) :=
  ⟨rfl, rfl, rfl, rfl, nofun⟩

theorem witness_EveryResponseObeysTheResponseRules :
    decode 0x4000000000#40 = .ok .clr ∧ hasValue .clr = false ∧
      runWord 0#40 (st 0 []) = illegal (st 0 []) := ⟨by decide, rfl, rfl⟩

theorem witness_DecodingAgreesWithTheOpcodeMap :
    decode 0x21FFFFFF80#40 = .ok (.putI8 0x80) ∧
      (⟨.putI8, .S, 0x21FFFFFF80, 0xFFFFFFFF80⟩ : Row) ∈ opcodeMap ∧
      Row.covers ⟨.putI8, .S, 0x21FFFFFF80, 0xFFFFFFFF80⟩ 0x21FFFFFF80#40 = true := by decide

theorem witness_EncodeOfDecodeIsTheWord : decode 0x4100000003#40 = .ok (.rdSr .cap) := by decide

theorem witness_WrittenOutWordsDecodeAsTheSpecSays :
    0x4100000004#40 ∈ [0x0000000000#40, 0x4100000004#40] := by decide

theorem witness_AssemblerTakesExactlyOperandsInRange :
    AsmName.load ∈ [AsmName.core .crcUpd, .core .putU8, .load] ∧
      AsmName.core .chk ∈ [AsmName.core .getU8, .core .getI8, .core .getF32, .core .chk] ∧
      AsmName.capRd ∈ [AsmName.core .crcInit, .core .putCrc, .core .clr, .crcRd, .lenRd, .statusRd,
        .capRd] ∧
      assemble ⟨.core .getU8, some 65535⟩ = some (.getU8 65535) ∧
      assemble ⟨.core .putI8, some (-128)⟩ = some (.putI8 0x80) ∧
      assemble ⟨.core .putU8, some 256⟩ = none := by decide

theorem witness_WrittenCommandsAreReadBack :
    AsmName.core .putI8 ∈ AsmName.all ∧ ['-', '1', '2', '8'] ≠ [] ∧
      (['-', '1', '2', '8'].all fun c => c != ' ' && c != ';') = true ∧
      operandOf .S ['-', '1', '2', '8'] = some (-128) ∧ Format.S.accepts (some (-128)) = true := by
  decide

theorem witness_StepRunsTheDecodedCommand :
    (given (.command 0x4000000000) (st 0 [1])).pending = .command 0x4000000000 :: [] ∧
      decode 0x4000000000#40 = .ok .clr := ⟨rfl, by decide⟩

theorem witness_EveryCommandGetsItsResponse :
    ({ st 0 [] with pending := [.command 0, .reset] } : State).pending =
      .command 0 :: .reset :: [] := rfl

theorem witness_NoStateIsStuck : (st 0 [1]).pending = [] := rfl

theorem witness_ResetLeavesTheResetValues :
    (given .reset (st 7 [1])).pending = .reset :: [] ∧
      step (given .reset (st 7 [1])) = .next State.reset ∧
      (⟨⟨true, true, 0, true⟩, true⟩ : Edge).pins.rst = true := ⟨rfl, rfl, rfl⟩

theorem witness_ResetDuringACommandAbandonsIt :
    (given (.resetDuring 5) (st 7 [1])).pending = .resetDuring 5 :: [] ∧
      (⟨⟨true, false, 0, false⟩, false⟩ : Edge).pins.rst = true := ⟨rfl, rfl⟩

theorem witness_ResetStateFollowsCrcInitAndClr :
    (st 7 [1]).ill = false ∧ (st 7 [1]).ovf = false := ⟨rfl, rfl⟩

/-- A full buffer meets the invariant. -/
theorem filled_inv : (filled Config.bufSize).Inv :=
  ⟨by simp [Memory.wf, filled_length], nofun⟩

theorem witness_EveryStepKeepsTheInvariant :
    (filled Config.bufSize).Inv ∧
      step (filled Config.bufSize) = .next (filled Config.bufSize) := ⟨filled_inv, rfl⟩

theorem witness_LenCountsTheBytesThatHoldAValue :
    (filled Config.bufSize).Inv ∧ Reaches (filled Config.bufSize) (filled Config.bufSize) :=
  ⟨filled_inv, .refl _⟩

theorem witness_RunIsGoodExactlyWhenTheFlagsStayClear :
    (filled Config.bufSize).ill = false ∧ (filled Config.bufSize).ovf = false := ⟨rfl, rfl⟩

/-- A float, and then four bytes, appended from the last offset at which they fit. -/
theorem witness_MixedWidthAccessesSeeTheSameBytes :
    (filled (Config.bufSize - 4)).buf.length + 4 ≤ Config.bufSize ∧
      (exec (.putF32 0x01020304) (st 0 [9]) =
        .next ((st 0 [9, 1, 2, 3, 4]).answer ⟨0, .noError, .none⟩) ∧
        (1 : Word16).toNat = (st 0 [9]).buf.length ∧
        (4 : Word16).toNat = (st 0 [9]).buf.length + 3) ∧
      (issueAll [.putU8 1, .putU8 2, .putU8 3, .putU8 4] (st 0 [9])).isSome = true ∧
      ((st 0 [9, 1, 2, 3, 4]).buf = [9] ++ [1, 2, 3, 4] ++ [] ∧ (1 : Word16).toNat = [9].length) :=
  ⟨(append_edges 4 (by omega) (by omega)).1,
    ⟨put_fits Config.bufSize (packF32 0x01020304) (st 0 [9])
      (by have := bufSize_range; simp [st, packF32]; omega), rfl, rfl⟩, by decide, rfl, rfl⟩

theorem witness_PortHoldsOneCommandUntilItsResponseIsDelivered :
    (⟨⟨false, true, 0, false⟩, false⟩ : Edge).pins.rst = false ∧
      (⟨st 0 [], .busy 0⟩ : Port).out.cmdReady = false ∧
      (⟨st 0 [], .busy 0⟩ : Port).out.rspValid = false ∧
      Port.reset.out.cmdReady = true ∧
      (⟨st 0 [], .busy 7⟩ : Port).phase = .busy 7 ∧
      (⟨⟨false, false, 0, false⟩, true⟩ : Edge).done = true ∧
      (⟨⟨false, true, 0, false⟩, false⟩ : Edge).pins.cmdValid = true ∧
      (⟨st 0 [], .responding 0 ⟨0, .noError, .ill⟩⟩ : Port).out.rspValid = true := by decide

/-- A run of the pins that accepts, executes and delivers one command. -/
theorem witness_PortRefinesTheTransactions :
    Port.reset.phase = .idle ∧
      (Port.run
        [⟨⟨false, true, 0x4100000000, false⟩, false⟩, ⟨⟨false, false, 0, false⟩, true⟩,
          ⟨⟨false, false, 0, true⟩, false⟩] Port.reset).phase = .idle := by decide

/-- The longest and the shortest frame of each clause, and a trailer that does not match. -/
theorem witness_DecodeOfABadFrameGivesTheDefaultMessage :
    (List.replicate 33 (0 : Byte)).length ≤ Config.bufSize ∧
      (List.replicate 33 (0 : Byte)).length < 34 ∧
      (List.replicate 35 (0 : Byte)).length ≤ Config.bufSize ∧
      (List.replicate 35 (0 : Byte)).length < 36 ∧
      34 ≤ (List.replicate 34 (0 : Byte)).length ∧ crc16 (List.replicate 34 0) ≠ 0x0000#16 ∧
      (List.replicate 36 (0 : Byte)).length ≤ Config.bufSize ∧
      36 ≤ (List.replicate 36 (0 : Byte)).length ∧ crc16 (List.replicate 36 0) ≠ 0x0000#16 := by
  have h := bufSize_range
  refine ⟨by simp; omega, by simp, by simp; omega, by simp, by simp, by decide +kernel, by simp; omega,
    by simp, by decide +kernel⟩

theorem witness_GetVersionReturnsTheVersionOrZero :
    [0xAA#8, 0x02] = 0xAA#8 :: 0x02#8 :: [] ∧ [0xAA#8, 0x02].length + 2 ≤ Config.bufSize ∧
      [0xAA#8, 0x02, 0xCF].length < 4 ∧ 2 ≤ [0xAA#8, 0x02].length ∧
      (0x0000 : Word16) ≠ crc16 [0xAA, 0x02] := by
  have h := bufSize_range
  exact ⟨rfl, by simp; omega, by decide, by decide, by decide +kernel⟩

end Sys2Proof.Tests
end

section
/-! PROOFS. What decoding makes of an encoded command, and so what a list of issued commands does. -/

namespace Sys2Proof.Machine

/-- The opcodes of R64 are distinct. -/
@[simp] theorem mnemonicOf_op (m : Mnemonic) : mnemonicOf m.op = some m := by
  cases m <;> decide

@[simp] theorem cmdOp_encode (i : Instr) : cmdOp (encode i) = i.mnemonic.op :=
  BitVec.extractLsb'_append_eq_left

@[simp] theorem cmdArg_encode (i : Instr) : cmdArg (encode i) = i.arg :=
  BitVec.extractLsb'_append_eq_right

/-- Widened with zeros, a value keeps its bits at the bottom. -/
theorem extractLsb'_zeroExtend_low {w n : Nat} (b : BitVec w) (h : w ≤ n) :
    (b.zeroExtend n).extractLsb' 0 w = b := by
  rw [BitVec.extractLsb'_setWidth_of_le (by omega), BitVec.extractLsb'_eq_self]

/-- Widened with zeros, a value has zeros above its own bits. -/
theorem extractLsb'_zeroExtend_high {w n : Nat} (b : BitVec w) (k : Nat) :
    (b.zeroExtend n).extractLsb' w k = 0#k := by
  ext j hj
  simp

/-- Widened by its sign, a value keeps its bits at the bottom. -/
theorem extractLsb'_signExtend_low (b : Byte) : (b.signExtend 32).extractLsb' 0 8 = b := by
  ext j hj
  rw [BitVec.getElem_extractLsb', BitVec.getLsbD_signExtend]
  simp [hj, show j < 32 by omega]

/-- The argument an instruction is encoded with meets the requirement of its format (R62). -/
theorem format_admits_arg (i : Instr) : i.mnemonic.format.admits i.arg = true := by
  cases i with
  | crcInit | putCrc | clr | putF32 => rfl
  | crcUpd b | putU8 b => exact beq_iff_eq.mpr (extractLsb'_zeroExtend_high b 24)
  | putI8 b =>
    exact beq_iff_eq.mpr (congrArg (BitVec.signExtend 32) (extractLsb'_signExtend_low b).symm)
  | getU8 o | getI8 o | getF32 o | chk o =>
    exact beq_iff_eq.mpr (extractLsb'_zeroExtend_high o 16)
  | rdSr r => cases r <;> rfl

/-- The operand read back from the argument is the one it was made of (R63). -/
theorem withArg_arg (i : Instr) : i.mnemonic.withArg i.arg = i := by
  cases i with
  | crcInit | putCrc | clr | putF32 => rfl
  | crcUpd b | putU8 b => exact congrArg _ (extractLsb'_zeroExtend_low b (by decide))
  | putI8 b => exact congrArg _ (extractLsb'_signExtend_low b)
  | getU8 o | getI8 o | getF32 o | chk o =>
    exact congrArg _ (extractLsb'_zeroExtend_low o (by decide))
  | rdSr r => cases r <;> rfl

theorem decode_encode (i : Instr) : decode (encode i) = .ok i := by
  simp [decode, format_admits_arg, withArg_arg]

theorem issue_of_exec (i : Instr) (s t : State) (r : Response) (h : exec i s = .next (t.answer r)) :
    issue i s = some (t.answer r, r) :=
  transact_of_answer _ s t r ((runWord_legal _ i s (decode_encode i)).trans h)

theorem issueAll_cons (i : Instr) (is : List Instr) (s t u : State) (r : Response)
    (rs : List Response) (h : issue i s = some (t, r)) (hs : issueAll is t = some (u, rs)) :
    issueAll (i :: is) s = some (u, r :: rs) := by
  simp [issueAll, h, hs]

end Sys2Proof.Machine
end

section
/-! PROOFS. BUF is bytes and nothing else (20_memory.md R45): what a GET answers depends on the bytes
present alone, whichever commands appended them. -/

namespace Sys2Proof.Machine

/-- Bytes present between any others are what a read at their offset gives. -/
theorem Memory.read_append (pre bs post : List Byte) :
    Memory.read (pre ++ bs ++ post) pre.length bs.length = some bs := by
  rw [Memory.read_eq_some]
  exact ⟨by simp, by simp⟩

theorem exec_getU8_of_byte (s : State) (o : Word16) (b : Byte)
    (h : Memory.byte s.buf o.toNat = some b) :
    exec (.getU8 o) s = .next (s.answer ⟨b.zeroExtend 32, .noError, .none⟩) := by
  have hread : Memory.read s.buf (offset o) 1 = some [b] := Memory.read_one _ _ b h
  simp only [exec, execGetU8, hread, Option.bind_some, unpackU8, Option.map_some,
    respondField_eq, dataU8]

theorem exec_getF32_of_read (s : State) (o : Word16) (b0 b1 b2 b3 : Byte)
    (h : Memory.read s.buf o.toNat 4 = some [b0, b1, b2, b3]) :
    exec (.getF32 o) s = .next (s.answer ⟨b0 ++ b1 ++ b2 ++ b3, .noError, .none⟩) := by
  have hread : Memory.read s.buf (offset o) 4 = some [b0, b1, b2, b3] := h
  simp only [exec, execGetF32, hread, Option.bind_some, unpackF32, respondField_eq]

/-- R45, for four bytes of any origin, at any offset. -/
theorem exec_getF32_of_present (s : State) (pre post : List Byte) (b0 b1 b2 b3 : Byte) (o : Word16)
    (hbuf : s.buf = pre ++ [b0, b1, b2, b3] ++ post) (ho : o.toNat = pre.length) :
    exec (.getF32 o) s = .next (s.answer ⟨b0 ++ b1 ++ b2 ++ b3, .noError, .none⟩) := by
  refine exec_getF32_of_read s o b0 b1 b2 b3 ?_
  rw [hbuf, ho]
  exact Memory.read_append pre [b0, b1, b2, b3] post

/-- Four bytes packed from a pattern, put together again, are the pattern (R133). -/
theorem packF32_bytes_append (v : Word32) :
    v.extractLsb' 24 8 ++ v.extractLsb' 16 8 ++ v.extractLsb' 8 8 ++ v.extractLsb' 0 8 = v := by
  have join := @BitVec.extractLsb'_append_extractLsb'_eq_extractLsb' 32
  rw [join (start₂ := 24) (start₁ := 16) rfl, join (start₂ := 16) (start₁ := 8) rfl,
    join (start₂ := 8) (start₁ := 0) rfl, BitVec.extractLsb'_eq_self]

theorem buf_of_exec_putF32 (s t : State) (v : Word32) (hfit : s.buf.length + 4 ≤ Config.bufSize)
    (h : exec (.putF32 v) s = .next t) : t.buf = s.buf ++ packF32 v := by
  have hput : exec (.putF32 v) s =
      .next (({ s with buf := s.buf ++ packF32 v } : State).answer ⟨0, .noError, .none⟩) :=
    put_fits Config.bufSize (packF32 v) s hfit
  rw [hput] at h
  cases h
  rfl

/-- Byte `i` of a field at the end of BUF, as GET.U8 answers it. -/
theorem exec_getU8_of_appended (t : State) (pre bs : List Byte) (b : Byte) (i : Nat) (o : Word16)
    (hbuf : t.buf = pre ++ bs) (ho : o.toNat = pre.length + i) (hb : bs[i]? = some b) :
    exec (.getU8 o) t = .next (t.answer ⟨b.zeroExtend 32, .noError, .none⟩) := by
  refine exec_getU8_of_byte t o b ?_
  rw [Memory.byte, hbuf, ho, List.getElem?_append_right (by omega), Nat.add_sub_cancel_left, hb]

theorem issue_putU8_of_fits (b : Byte) (s : State) (hfit : s.buf.length + 1 ≤ Config.bufSize) :
    ∃ t r, issue (.putU8 b) s = some (t, r) ∧ t.buf = s.buf ++ [b] :=
  ⟨_, _, issue_of_exec _ s _ _ (put_fits Config.bufSize (packU8 b) s hfit), rfl⟩

/-- Byte appends that fit leave their bytes at the end of BUF, in order. -/
theorem issueAll_putU8_of_fits (bs : List Byte) (s : State)
    (hfit : s.buf.length + bs.length ≤ Config.bufSize) :
    ∃ t rs, issueAll (bs.map Instr.putU8) s = some (t, rs) ∧ t.buf = s.buf ++ bs := by
  induction bs generalizing s with
  | nil => exact ⟨s, [], rfl, by simp⟩
  | cons b bs ih =>
    rw [List.length_cons] at hfit
    obtain ⟨t, r, hput, ht⟩ := issue_putU8_of_fits b s (by omega)
    obtain ⟨u, rs, hrest, hu⟩ := ih t (by simp [ht]; omega)
    exact ⟨u, r :: rs, issueAll_cons _ _ _ _ _ _ _ hput hrest, by simp [hu, ht]⟩

/-- Settles O49: each clause reads bytes that stand at the offset, so one lemma about the bytes present
answers for a float's append, for four byte appends, and for any other origin. -/
theorem mixedWidthAccessesSeeTheSameBytes : Obligations.MixedWidthAccessesSeeTheSameBytes := by
  unfold Obligations.MixedWidthAccessesSeeTheSameBytes
  refine ⟨?float, ?bytes, exec_getF32_of_present⟩
  case float =>
    intro s t v hfit hput o
    have hbuf : t.buf = s.buf ++ packF32 v := buf_of_exec_putF32 s t v hfit hput
    refine ⟨fun ho => exec_getU8_of_appended t s.buf _ _ 0 o hbuf ho rfl,
      fun ho => exec_getU8_of_appended t s.buf _ _ 1 o hbuf ho rfl,
      fun ho => exec_getU8_of_appended t s.buf _ _ 2 o hbuf ho rfl,
      fun ho => exec_getU8_of_appended t s.buf _ _ 3 o hbuf ho rfl, fun ho => ?_⟩
    have hget := exec_getF32_of_present t s.buf [] _ _ _ _ o
      (by rw [hbuf, List.append_nil, packF32]) ho
    rwa [packF32_bytes_append] at hget
  case bytes =>
    intro s t rs b0 b1 b2 b3 o hfit hrun ho
    obtain ⟨u, us, hputs, hbuf⟩ := issueAll_putU8_of_fits [b0, b1, b2, b3] s hfit
    obtain ⟨rfl, -⟩ : u = t ∧ us = rs := by simpa using hputs.symm.trans hrun
    exact exec_getF32_of_present u s.buf [] b0 b1 b2 b3 o (by rw [hbuf, List.append_nil]) ho

end Sys2Proof.Machine
end

section
/-! PROOFS. The response word (30_encoding.md R72) holds its three fields, and the host reads them back. -/

namespace Sys2Proof.Machine

@[simp] theorem ErrorCode.ofCode_code (e : ErrorCode) : ErrorCode.ofCode e.code = some e := by
  cases e <;> rfl

@[simp] theorem FaultCode.ofCode_code (f : FaultCode) : FaultCode.ofCode f.code = some f := by
  cases f <;> rfl

@[simp] theorem Response.word_fault (r : Response) : r.word.extractLsb' 34 2 = r.fault.code := by
  rw [Response.word, BitVec.append_assoc]
  exact BitVec.extractLsb'_append_eq_left

@[simp] theorem Response.word_err (r : Response) : r.word.extractLsb' 32 2 = r.err.code := by
  rw [Response.word, BitVec.extractLsb'_append_eq_of_le (by decide)]
  exact BitVec.extractLsb'_append_eq_right

@[simp] theorem Response.word_data (r : Response) : r.word.extractLsb' 0 32 = r.data :=
  BitVec.extractLsb'_append_eq_right

theorem Response.ofWord_word (r : Response) : Response.ofWord r.word = some r := by
  simp [Response.ofWord]

/-- Settles O36: each field is cut out of the concatenation, and its code names it again. -/
theorem responseWordHoldsFaultErrAndData : Obligations.ResponseWordHoldsFaultErrAndData := by
  unfold Obligations.ResponseWordHoldsFaultErrAndData
  exact fun r => ⟨r.word_fault, r.word_err, r.word_data, r.ofWord_word⟩

end Sys2Proof.Machine
end

section
/-! PROOFS. What a command can answer (30_encoding.md R73): a success, an error of its own or, for a PUT,
the overflow fault; a word that is no command answers the illegal-word fault. -/

namespace Sys2Proof.Machine

/-- The responses a command can give: a success whose data is 0 unless the command has a value, an error
code that the command may answer (NoError is one, as CHK's verdict) with data 0, or the overflow fault of
a command that appends. -/
inductive Answers (i : Instr) : Response → Prop where
  | success (d : Word32) (h : hasValue i = false → d = 0) : Answers i ⟨d, .noError, .none⟩
  | error (e : ErrorCode) (h : mayAnswer i e = true) : Answers i ⟨0, e, .none⟩
  | overflow (n : Nat) (h : appends i = some n) : Answers i ⟨0, .noError, .ovf⟩

/-- An outcome of a command is a next state with one response more, one the command can give. -/
def Responds (i : Instr) (s : State) (o : Host.Outcome State Fault Refusal) : Prop :=
  ∃ (t : State) (r : Response), o = .next t ∧ t.responses = s.responses ++ [r] ∧ Answers i r

theorem responds_respond (i : Instr) (s t : State) (d : Word32) (e : ErrorCode) (f : FaultCode)
    (ht : t.responses = s.responses) (h : Answers i ⟨d, e, f⟩) :
    Responds i s (respond d e f t) :=
  ⟨_, _, respond_eq d e f t, by rw [State.answer_responses, ht], h⟩

/-- An append responds either by its overflow fault or as the rest of the command does. -/
theorem responds_append (i : Instr) (n cap : Nat) (bs : List Byte) (s : State)
    (done : State → Host.Outcome State Fault Refusal) (hi : appends i = some n)
    (hdone : ∀ t : State, t.responses = s.responses → Responds i s (done t)) :
    Responds i s (append cap bs s done) := by
  obtain hover | hfit := Nat.lt_or_ge cap (s.buf.length + bs.length)
  · rw [append_overflows cap bs s done hover]
    exact responds_respond i s s.setOvf _ _ _ rfl (.overflow n hi)
  · rw [append_fits cap bs s done hfit]
    exact hdone _ rfl

theorem responds_put (i : Instr) (n cap : Nat) (bs : List Byte) (s : State)
    (hi : appends i = some n) : Responds i s (put cap bs s) :=
  responds_append i n cap bs s _ hi fun t ht =>
    responds_respond i s t _ _ _ ht (.success 0 fun _ => rfl)

theorem responds_putCrc (cap : Nat) (s : State) : Responds .putCrc s (putCrc cap s) :=
  responds_append .putCrc 2 cap _ s _ rfl fun _ ht =>
    responds_respond .putCrc s _ _ _ _ ht (.success _ nofun)

theorem responds_respondField (i : Instr) (field : Option Word32) (s : State)
    (hv : hasValue i = true) (he : mayAnswer i .wrongDataSize = true) :
    Responds i s (respondField field s) := by
  cases field with
  | some v => exact responds_respond i s s _ _ _ rfl (.success v (by simp [hv]))
  | none => exact responds_respond i s s _ _ _ rfl (.error .wrongDataSize he)

theorem responds_execChk (k : Word16) (s : State) : Responds (.chk k) s (execChk k s) := by
  by_cases hshort : s.buf.length < k.toNat ∨ s.buf.length < 2
  · rw [execChk_short k s hshort]
    exact responds_respond _ s s _ _ _ rfl (.error .wrongDataSize rfl)
  · rw [execChk_long k s hshort]
    refine responds_respond _ s { s with crc := crc16 (covered s.buf) } _ _ _ rfl (.error _ ?_)
    split <;> rfl

/-- Every command responds, in every state. -/
theorem responds_exec (i : Instr) (s : State) : Responds i s (exec i s) := by
  cases i with
  | crcInit | crcUpd b | clr => exact responds_respond _ s _ _ _ _ rfl (.success 0 fun _ => rfl)
  | rdSr r => exact responds_respond _ s s _ _ _ rfl (.success _ nofun)
  | putU8 b | putI8 b => exact responds_put _ 1 _ _ s rfl
  | putF32 p => exact responds_put _ 4 _ _ s rfl
  | putCrc => exact responds_putCrc _ s
  | getU8 o | getI8 o | getF32 o => exact responds_respondField _ _ s rfl rfl
  | chk k => exact responds_execChk k s

/-- Settles O31: a legal word gives one of the answers of its command, each of which keeps the rules; any
other word gives the illegal-word fault, whose data is 0 and whose error is none. -/
theorem everyResponseObeysTheResponseRules : Obligations.EveryResponseObeysTheResponseRules := by
  unfold Obligations.EveryResponseObeysTheResponseRules
  intro w s
  cases hw : decode w with
  | error e =>
    exact ⟨_, _, (runWord_illegal w e s hw).trans (illegal_eq s), rfl, by simp⟩
  | ok i =>
    obtain ⟨t, r, hexec, hresponses, hanswer⟩ := responds_exec i s
    refine ⟨t, r, (runWord_legal w i s hw).trans hexec, hresponses, ?_⟩
    cases hanswer with
    | success d hd => simpa using hd
    | error e he => simp [he]
    | overflow n hn => simp [hn]

end Sys2Proof.Machine
end

section
/-! PROOFS. The checksum functions (40_crc.md R90 to R92): a round in its equivalent form, a byte as
eight rounds, and that each of them permutes the registers. -/

namespace Sys2Proof.Machine

/-- The shift in 17 bits, masked to 16: the bit shifted out is dropped (R90). -/
theorem truncate_shiftLeft_one (r : Word16) :
    ((r.zeroExtend 17) <<< 1).truncate 16 = r.extractLsb' 0 15 ++ 0#1 := by
  have hback : (r.zeroExtend 17).truncate 16 = r :=
    (BitVec.setWidth_setWidth_of_le r (by decide : 16 ≤ 17)).trans (BitVec.setWidth_eq r)
  calc ((r.zeroExtend 17) <<< 1).truncate 16
      = ((r.zeroExtend 17).truncate 16) <<< 1 := BitVec.setWidth_shiftLeft_of_le (by decide)
    _ = r <<< 1 := by rw [hback]
    _ = r.extractLsb' 0 15 ++ 0#1 := BitVec.shiftLeft_eq_concat_of_lt (by decide)

/-- R90's equivalent form. -/
theorem crcRound_eq (r : Word16) :
    crcRound r = (r.extractLsb' 0 15 ++ 0#1) ^^^ (if r.getLsbD 15 then 0x1021#16 else 0x0000#16) := by
  unfold crcRound
  split
  · exact BitVec.setWidth_xor.trans (congrArg (· ^^^ 0x1021#16) (truncate_shiftLeft_one r))
  · exact (truncate_shiftLeft_one r).trans BitVec.xor_zero.symm

/-- The polynomial's lowest bit is 1 and the shift leaves a 0 there, so the top bit of a register comes
back as the lowest of its round. -/
theorem crcRound_getLsbD_zero (r : Word16) : (crcRound r).getLsbD 0 = r.getLsbD 15 := by
  have hshifted : (r.extractLsb' 0 15 ++ 0#1).getLsbD 0 = false := by
    rw [BitVec.getLsbD_append]
    rfl
  rw [crcRound_eq, BitVec.getLsbD_xor, hshifted]
  cases r.getLsbD 15 <;> rfl

/-- A register is its top bit above its other bits. -/
theorem eq_of_top_and_low {a b : Word16} (htop : a.getLsbD 15 = b.getLsbD 15)
    (hlow : a.extractLsb' 0 15 = b.extractLsb' 0 15) : a = b := by
  refine BitVec.eq_of_getLsbD_eq fun i hi => ?_
  obtain rfl | hlt : i = 15 ∨ i < 15 := by omega
  · exact htop
  · simpa [hlt] using congrArg (BitVec.getLsbD · i) hlow

theorem crcRound_injective : Function.Injective crcRound := by
  intro a b h
  have htop : a.getLsbD 15 = b.getLsbD 15 := by
    rw [← crcRound_getLsbD_zero, ← crcRound_getLsbD_zero, h]
  rw [crcRound_eq, crcRound_eq, htop, BitVec.xor_left_inj, BitVec.append_left_inj] at h
  exact eq_of_top_and_low htop h

theorem crcRounds_injective (k : Nat) : Function.Injective (crcRounds k) := by
  induction k with
  | zero => exact Function.injective_id
  | succ k ih => exact ih.comp crcRound_injective

theorem crcByte_injective (b : Byte) : Function.Injective fun r : Word16 => crcByte r b :=
  (crcRounds_injective 8).comp fun _ _ h => (BitVec.xor_left_inj _).mp h

/-- No byte makes the register stick (R95). -/
theorem crcByte_bijective (b : Byte) : Function.Bijective fun r : Word16 => crcByte r b :=
  (crcByte_injective b).bijective_of_finite

theorem high_byte_append_low_byte (r : Word16) : r.extractLsb' 8 8 ++ r.extractLsb' 0 8 = r :=
  (BitVec.extractLsb'_append_extractLsb'_eq_extractLsb' rfl).trans BitVec.extractLsb'_eq_self

/-- A byte over eight zeros meets only the high byte of the register (R91). -/
theorem xor_byte_append_zero (r : Word16) (b : Byte) :
    r ^^^ (b ++ 0x00#8) = (r.extractLsb' 8 8 ^^^ b) ++ r.extractLsb' 0 8 := by
  calc r ^^^ (b ++ 0x00#8)
      = (r.extractLsb' 8 8 ++ r.extractLsb' 0 8) ^^^ (b ++ 0x00#8) := by
        rw [high_byte_append_low_byte]
    _ = (r.extractLsb' 8 8 ^^^ b) ++ r.extractLsb' 0 8 := by
      rw [BitVec.xor_append, BitVec.xor_zero]

theorem crc16_append (m n : List Byte) : crc16 (m ++ n) = n.foldl crcByte (crc16 m) :=
  List.foldl_append

/-- Settles O1: the two branches of the definition, each shifting as `truncate_shiftLeft_one` says. -/
theorem crcRoundShiftsAndAddsPolynomial : Obligations.CrcRoundShiftsAndAddsPolynomial :=
  crcRound_eq

/-- Settles O2: eight rounds unfold on the register with the byte in its high half. -/
theorem crcByteIsEightRoundsOnTheHighByte : Obligations.CrcByteIsEightRoundsOnTheHighByte := by
  unfold Obligations.CrcByteIsEightRoundsOnTheHighByte
  intro r b
  rw [← xor_byte_append_zero]
  rfl

/-- Settles O3: the fold over nothing, and over a message and one byte more. -/
theorem crc16FoldsBytesFromInitialRegister : Obligations.Crc16FoldsBytesFromInitialRegister := by
  unfold Obligations.Crc16FoldsBytesFromInitialRegister
  exact ⟨rfl, fun m b => crc16_append m [b]⟩

end Sys2Proof.Machine
end

section
/-! PROOFS. The CRC family (40_crc.md R94, R95): CRC.INIT, CRC.UPD, and what a stream of commands leaves
in CRC when only CRC.UPD writes it. -/

namespace Sys2Proof.Machine

/-- What a word with an opcode of the map decodes to (R64 to R66). -/
theorem decode_op_append (m : Mnemonic) (arg : Word32) :
    decode (m.op ++ arg) =
      if m.format.admits arg then .ok (m.withArg arg) else .error (.argument m arg) := by
  have hop : cmdOp (m.op ++ arg) = m.op := BitVec.extractLsb'_append_eq_left
  have harg : cmdArg (m.op ++ arg) = arg := BitVec.extractLsb'_append_eq_right
  simp only [decode, hop, harg, mnemonicOf_op]

/-- A word of a format with no operand is illegal when its argument is not 0 (R62, R66). -/
theorem decode_op_append_of_ne_zero (m : Mnemonic) (arg : Word32) (hm : m.format = .N)
    (harg : arg ≠ 0) : decode (m.op ++ arg) = .error (.argument m arg) := by
  rw [decode_op_append, hm, if_neg (by simpa [Format.admits] using harg)]

/-- An opcode, 24 zeros and a byte: the byte is the operand of format B (R62). -/
theorem op_append_zeros_append_byte (op b : Byte) : (op ++ 0#24) ++ b = op ++ b.zeroExtend 32 := by
  rw [BitVec.append_assoc, BitVec.zeroExtend, BitVec.setWidth_eq_append (by decide)]
  rfl

theorem decode_crcUpd_word (b : Byte) : decode (0x11000000#32 ++ b) = .ok (.crcUpd b) := by
  have hword : 0x11000000#32 ++ b = encode (.crcUpd b) := op_append_zeros_append_byte 0x11 b
  rw [hword, decode_encode]

/-- A command run to a next state with one response more gives that response to the host. -/
theorem issue_of_responses (i : Instr) (s t : State) (r : Response) (hexec : exec i s = .next t)
    (hr : t.responses = s.responses ++ [r]) : issue i s = some (t, r) := by
  have hrun : runWord (encode i) s = .next t := (runWord_legal _ i s (decode_encode i)).trans hexec
  simp [issue, transact, hrun, hr]

/-- A PUT with no value to return leaves CRC, whether it fits or overflows. -/
theorem crc_of_put (cap : Nat) (bs : List Byte) (s t : State) (h : put cap bs s = .next t) :
    t.crc = s.crc := by
  obtain hover | hfit := Nat.lt_or_ge cap (s.buf.length + bs.length)
  · rw [put_overflows cap bs s hover] at h
    cases h
    rfl
  · rw [put_fits cap bs s hfit] at h
    cases h
    rfl

theorem crc_of_respondField (field : Option Word32) (s t : State)
    (h : respondField field s = .next t) : t.crc = s.crc := by
  rw [respondField_eq] at h
  cases h
  rfl

/-- Only the commands that `writesCrc` names change CRC (R22). -/
theorem crc_of_exec (i : Instr) (s t : State) (h : exec i s = .next t) (hi : writesCrc i = false) :
    t.crc = s.crc := by
  cases i with
  | crcInit | crcUpd b | putCrc | chk k => cases hi
  | putU8 b | putI8 b | putF32 p => exact crc_of_put _ _ s t h
  | getU8 o | getI8 o | getF32 o => exact crc_of_respondField _ s t h
  | clr | rdSr r => cases h; rfl

theorem updByte_eq_none (i : Instr) (hi : writesCrc i = false) : updByte i = none := by
  cases i with
  | crcUpd b => cases hi
  | _ => rfl

/-- One command of a stream: a CRC.UPD folds its byte, any other leaves CRC. -/
theorem issue_folds_updByte (i : Instr) (s : State)
    (hi : writesCrc i = true → ∃ b, i = .crcUpd b) :
    ∃ t r, issue i s = some (t, r) ∧ t.crc = (updByte i).toList.foldl crcByte s.crc := by
  cases hw : writesCrc i with
  | true =>
    obtain ⟨b, rfl⟩ := hi hw
    exact ⟨_, _, issue_of_exec (.crcUpd b) s _ _ rfl, rfl⟩
  | false =>
    obtain ⟨t, r, hexec, hr, -⟩ := responds_exec i s
    refine ⟨t, r, issue_of_responses i s t r hexec hr, ?_⟩
    rw [updByte_eq_none i hw]
    exact crc_of_exec i s t hexec hw

/-- A stream in which only CRC.UPD writes CRC folds the bytes of its CRC.UPDs, from any register. -/
theorem issueAll_folds_updBytes (is : List Instr) (s : State)
    (his : ∀ i ∈ is, writesCrc i = true → ∃ b, i = .crcUpd b) :
    ∃ t rs, issueAll is s = some (t, rs) ∧ t.crc = (is.filterMap updByte).foldl crcByte s.crc := by
  induction is generalizing s with
  | nil => exact ⟨s, [], rfl, rfl⟩
  | cons i is ih =>
    rw [List.forall_mem_cons] at his
    obtain ⟨hi, his⟩ := his
    obtain ⟨t, r, hissue, ht⟩ := issue_folds_updByte i s hi
    obtain ⟨u, rs, hrest, hu⟩ := ih t his
    refine ⟨u, r :: rs, issueAll_cons i is s t u r rs hissue hrest, ?_⟩
    rw [hu, ht, ← List.foldl_append]
    cases hb : updByte i <;> simp [hb]

/-- After CRC.INIT the register a stream folds into is the initial one, so CRC is a crc16 (R92, R95). -/
theorem issueAll_crcInit_crc (is : List Instr) (s : State)
    (his : ∀ i ∈ is, writesCrc i = true → ∃ b, i = .crcUpd b) :
    ∃ t rs, issueAll (.crcInit :: is) s = some (t, rs) ∧ t.crc = crc16 (is.filterMap updByte) := by
  have hinit := issue_of_exec .crcInit s { s with crc := crcInitial } ⟨0, .noError, .none⟩ rfl
  obtain ⟨t, rs, hrest, ht⟩ := issueAll_folds_updBytes is _ his
  exact ⟨t, _ :: rs, issueAll_cons _ _ _ _ _ _ _ hinit hrest, ht⟩

/-- Settles O10: CRC.INIT has no operand, so its one word is its opcode and zeros; the effect is the
meaning. -/
theorem crcInitLoadsTheInitialRegister : Obligations.CrcInitLoadsTheInitialRegister := by
  unfold Obligations.CrcInitLoadsTheInitialRegister
  exact ⟨decode_encode .crcInit,
    fun arg harg => ⟨_, decode_op_append_of_ne_zero .crcInit arg rfl harg⟩, fun _ => rfl⟩

/-- Settles O11: the word is an encoding, the effect is the meaning, each round can be undone from its
lowest bit, and the stream is an induction over its commands. -/
theorem crcUpdFoldsOneByteIntoTheRegister : Obligations.CrcUpdFoldsOneByteIntoTheRegister := by
  unfold Obligations.CrcUpdFoldsOneByteIntoTheRegister
  exact ⟨decode_crcUpd_word, fun _ _ => rfl, crcByte_bijective, issueAll_crcInit_crc⟩

end Sys2Proof.Machine
end

section
/-! PROOFS. The appends with no value to return (41_pack.md R115 to R117): PUT.U8, PUT.I8 and PUT.F32
answer as `put` does, with the bytes of their field. -/

namespace Sys2Proof.Machine

/-- A PUT that does not fit changes nothing but OVF, whatever its field (R194). -/
theorem put_overflows_eq (cap : Nat) (bs : List Byte) (s : State)
    (h : cap < s.buf.length + bs.length) :
    put cap bs s = .next (({ s with ovf := true } : State).answer ⟨0, .noError, .ovf⟩) :=
  (put_overflows cap bs s h).trans (overflow_eq s)

theorem decode_putU8_word (b : Byte) : decode (0x20000000#32 ++ b) = .ok (.putU8 b) := by
  have hword : 0x20000000#32 ++ b = encode (.putU8 b) := op_append_zeros_append_byte 0x20 b
  rw [hword, decode_encode]

/-- A byte whose sign is clear is widened by zeros. -/
theorem signExtend_eq_zeroExtend_of_nonneg (b : Byte) (h : 0 ≤ b.toInt) :
    b.signExtend 32 = b.zeroExtend 32 :=
  BitVec.signExtend_eq_setWidth_of_msb_false (by simpa [BitVec.msb_eq_toInt] using h)

/-- A byte whose sign is set is widened by ones. -/
theorem signExtend_eq_ones_append_of_neg (b : Byte) (h : b.toInt < 0) :
    b.signExtend 32 = 0xFFFFFF#24 ++ b := by
  have hmsb : b.msb = true := by simpa [BitVec.msb_eq_toInt] using h
  rw [BitVec.signExtend_eq_append_of_le (by decide), hmsb]
  rfl

/-- The row of PUT.I8 for the bytes that are not negative (R64). -/
theorem decode_putI8_word_of_nonneg (b : Byte) (h : 0 ≤ b.toInt) :
    decode (0x21000000#32 ++ b) = .ok (.putI8 b) := by
  have hword : 0x21000000#32 ++ b = encode (.putI8 b) :=
    calc 0x21000000#32 ++ b
        = 0x21#8 ++ b.zeroExtend 32 := op_append_zeros_append_byte 0x21 b
      _ = 0x21#8 ++ b.signExtend 32 := by rw [signExtend_eq_zeroExtend_of_nonneg b h]
  rw [hword, decode_encode]

/-- The row of PUT.I8 for the negative bytes (R64). -/
theorem decode_putI8_word_of_neg (b : Byte) (h : b.toInt < 0) :
    decode (0x21FFFFFF#32 ++ b) = .ok (.putI8 b) := by
  have hword : 0x21FFFFFF#32 ++ b = encode (.putI8 b) :=
    calc 0x21FFFFFF#32 ++ b
        = (0x21#8 ++ 0xFFFFFF#24) ++ b := rfl
      _ = 0x21#8 ++ (0xFFFFFF#24 ++ b) := BitVec.append_assoc
      _ = 0x21#8 ++ b.signExtend 32 := by rw [signExtend_eq_ones_append_of_neg b h]
  rw [hword, decode_encode]

/-- Settles O12: the word is an encoding, and the effect is that of a put of one byte. -/
theorem putU8AppendsOneByte : Obligations.PutU8AppendsOneByte := by
  unfold Obligations.PutU8AppendsOneByte
  exact ⟨decode_putU8_word, fun b => put_fits Config.bufSize (packU8 b),
    fun b => put_overflows_eq Config.bufSize (packU8 b)⟩

/-- Settles O13: each row is the encoding of the bytes of its sign, the words of 128 and of -129 are not
the sign extension of their low byte, and the effect is that of a put of one byte, as PUT.U8's is. -/
theorem putI8AppendsOneSignedByte : Obligations.PutI8AppendsOneSignedByte := by
  unfold Obligations.PutI8AppendsOneSignedByte
  exact ⟨decode_putI8_word_of_neg, decode_putI8_word_of_nonneg,
    ⟨_, decode_op_append .putI8 0x00000080⟩, ⟨_, decode_op_append .putI8 0xFFFFFF7F⟩,
    fun b => put_fits Config.bufSize (packI8 b), fun b => put_overflows_eq Config.bufSize (packI8 b),
    fun _ _ => rfl⟩

/-- Settles O14: the word is an encoding, and the effect is that of a put of the four bytes of
`packF32`. -/
theorem putF32AppendsFourBytesBigEndian : Obligations.PutF32AppendsFourBytesBigEndian := by
  unfold Obligations.PutF32AppendsFourBytesBigEndian
  exact ⟨fun p => decode_encode (.putF32 p), fun p => put_fits Config.bufSize (packF32 p),
    fun p => put_overflows_eq Config.bufSize (packF32 p)⟩

end Sys2Proof.Machine
end

section
/-! PROOFS. PUT.CRC (41_pack.md R118): the trailer it appends makes the CRC of the frame 0 (40_crc.md
R97 (d)), and CHK accepts the frame it leaves. -/

namespace Sys2Proof.Machine

/-- With its top bit clear a register is shifted, and no polynomial is added (R90). -/
theorem crcRound_of_top_clear (r : Word16) (h : r.getMsbD 0 = false) : crcRound r = r <<< 1 := by
  have htop : r.getLsbD 15 = false := h
  rw [crcRound_eq, htop, BitVec.shiftLeft_eq_concat_of_lt (by decide)]
  exact BitVec.xor_zero

/-- As long as the bits that come to the top are 0, rounds only shift. -/
theorem crcRounds_of_top_clear (k : Nat) (r : Word16) (h : ∀ i < k, r.getMsbD i = false) :
    crcRounds k r = r <<< k := by
  induction k generalizing r with
  | zero => exact (BitVec.shiftLeft_zero r).symm
  | succ k ih =>
    have hshifted : ∀ i < k, (r <<< 1).getMsbD i = false := fun i hi => by
      rw [BitVec.getMsbD_shiftLeft]
      exact h (i + 1) (by omega)
    calc crcRounds (k + 1) r
        = crcRounds k (r <<< 1) := congrArg (crcRounds k) (crcRound_of_top_clear r (h 0 (by omega)))
      _ = r <<< 1 <<< k := ih _ hshifted
      _ = r <<< (k + 1) := by rw [← BitVec.shiftLeft_add, Nat.add_comm]

/-- Folding in the register's own high byte leaves its low byte above zeros. -/
theorem crcByte_own_high_byte (hi lo : Byte) : crcByte (hi ++ lo) hi = lo ++ 0#8 := by
  have hxor : (hi ++ lo) ^^^ (hi ++ 0#8) = 0#8 ++ lo := by
    rw [BitVec.xor_append, BitVec.xor_self, BitVec.xor_zero]
  have hclear : ∀ i < 8, (0#8 ++ lo).getMsbD i = false := fun i hlt =>
    BitVec.getMsbD_append.trans (by simp [hlt])
  calc crcByte (hi ++ lo) hi
      = crcRounds 8 (0#8 ++ lo) := congrArg (crcRounds 8) hxor
    _ = (0#8 ++ lo) <<< 8 := crcRounds_of_top_clear 8 _ hclear
    _ = (0#8 ++ lo).extractLsb' 0 8 ++ 0#8 := BitVec.shiftLeft_eq_concat_of_lt (by decide)
    _ = lo ++ 0#8 := by rw [BitVec.extractLsb'_append_eq_right]

/-- Folding a register's own two bytes into it, high byte first, leaves 0. -/
theorem foldl_crcByte_pack16 (c : Word16) : (pack16 c).foldl crcByte c = 0#16 := by
  calc (pack16 c).foldl crcByte c
      = crcByte (crcByte (c.extractLsb' 8 8 ++ c.extractLsb' 0 8) (c.extractLsb' 8 8))
          (c.extractLsb' 0 8) := by rw [high_byte_append_low_byte]; rfl
    _ = crcByte (c.extractLsb' 0 8 ++ 0#8) (c.extractLsb' 0 8) := by rw [crcByte_own_high_byte]
    _ = 0#8 ++ 0#8 := crcByte_own_high_byte _ _

/-- R97 (d): a frame with its own trailer has CRC 0. -/
theorem crc16_append_pack16 (m : List Byte) : crc16 (m ++ pack16 (crc16 m)) = 0#16 :=
  (crc16_append m _).trans (foldl_crcByte_pack16 _)

/-- What a PUT.CRC that fits leaves in BUF and CRC (R118). -/
theorem buf_and_crc_of_exec_putCrc (s t : State) (hfit : s.buf.length + 2 ≤ Config.bufSize)
    (h : exec .putCrc s = .next t) :
    t.buf = s.buf ++ pack16 (crc16 s.buf) ∧ t.crc = crc16 s.buf := by
  have hput := putCrc_fits Config.bufSize s hfit
  cases hput.symm.trans h
  exact ⟨rfl, rfl⟩

/-- From an empty BUF, PUT.CRC appends the initial register. -/
theorem exec_putCrc_of_nil (s : State) (hs : s.buf = []) :
    ∃ t, exec .putCrc s = .next t ∧ t.buf = [0xFF, 0xFF] := by
  have hfit : s.buf.length + 2 ≤ Config.bufSize := by
    have hrange := bufSize_range
    rw [hs, List.length_nil]
    omega
  refine ⟨_, putCrc_fits Config.bufSize s hfit, ?_⟩
  rw [State.answer_buf, hs]
  rfl

/-- A second PUT.CRC sees a frame of CRC 0. -/
theorem exec_putCrc_twice (s t : State) (hfit : s.buf.length + 4 ≤ Config.bufSize)
    (h : exec .putCrc s = .next t) :
    ∃ u, exec .putCrc t = .next u ∧ u.buf = t.buf ++ [0x00, 0x00] ∧ u.crc = 0x0000#16 := by
  obtain ⟨hbuf, -⟩ := buf_and_crc_of_exec_putCrc s t (by omega) h
  have hcrc : crc16 t.buf = 0#16 := by rw [hbuf, crc16_append_pack16]
  have hfit' : t.buf.length + 2 ≤ Config.bufSize := by
    rw [hbuf, List.length_append, pack16, List.length_cons, List.length_singleton]
    omega
  refine ⟨_, putCrc_fits Config.bufSize t hfit', ?_, hcrc⟩
  rw [State.answer_buf, hcrc]
  rfl

/-- CHK accepts a frame that ends in its own trailer, and leaves the CRC of the bytes before it (R138). -/
theorem exec_chk_of_own_trailer (t : State) (m : List Byte) (k : Word16)
    (hbuf : t.buf = m ++ pack16 (crc16 m)) (hk : k.toNat ≤ t.buf.length) :
    exec (.chk k) t = .next (({ t with crc := crc16 m } : State).answer ⟨0, .noError, .none⟩) := by
  obtain ⟨htrailer, hcovered⟩ := trailer_append_pack16 m (crc16 m)
  have hlong : 2 ≤ t.buf.length := by simp [hbuf, pack16]
  refine (execChk_long k t (by omega)).trans ?_
  rw [hbuf, hcovered, if_pos htrailer]

/-- PUT.CRC leaves in CRC what CHK computes, so CHK then changes nothing but the responses. -/
theorem exec_chk_of_exec_putCrc (s t : State) (k : Word16)
    (hfit : s.buf.length + 2 ≤ Config.bufSize) (h : exec .putCrc s = .next t)
    (hk : k.toNat ≤ t.buf.length) :
    exec (.chk k) t = .next (t.answer ⟨0, .noError, .none⟩) := by
  obtain ⟨hbuf, hcrc⟩ := buf_and_crc_of_exec_putCrc s t hfit h
  rw [exec_chk_of_own_trailer t s.buf k hbuf hk, ← hcrc]

/-- Settles O15: the effect is `putCrc`'s; the clauses on what follows are the CRC of a frame with its
trailer and CHK's comparison of the two. -/
theorem putCrcAppendsTheCrcOfTheFrame : Obligations.PutCrcAppendsTheCrcOfTheFrame := by
  unfold Obligations.PutCrcAppendsTheCrcOfTheFrame
  exact ⟨decode_encode .putCrc, putCrc_fits Config.bufSize,
    fun s h => (putCrc_overflows Config.bufSize s h).trans (overflow_eq s),
    exec_putCrc_of_nil, exec_putCrc_twice, exec_chk_of_exec_putCrc⟩

end Sys2Proof.Machine
end

section
/-! PROOFS. The codec functions (42_unpack.md R133): each unpack reads back what its pack makes, and each
pack makes again the bytes that its unpack reads. -/

namespace Sys2Proof.Machine

/-- Four bytes put together, most significant first, are packed into themselves (R133). -/
theorem packF32_append (b0 b1 b2 b3 : Byte) : packF32 (b0 ++ b1 ++ b2 ++ b3) = [b0, b1, b2, b3] := by
  have h0 : (b0 ++ b1 ++ b2 ++ b3).extractLsb' 24 8 = b0 := by
    rw [BitVec.extractLsb'_append_eq_of_le (by decide), BitVec.extractLsb'_append_eq_of_le (by decide)]
    exact BitVec.extractLsb'_append_eq_left
  have h1 : (b0 ++ b1 ++ b2 ++ b3).extractLsb' 16 8 = b1 := by
    rw [BitVec.extractLsb'_append_eq_of_le (by decide), BitVec.extractLsb'_append_eq_of_le (by decide)]
    exact BitVec.extractLsb'_append_eq_right
  have h2 : (b0 ++ b1 ++ b2 ++ b3).extractLsb' 8 8 = b2 := by
    rw [BitVec.extractLsb'_append_eq_of_le (by decide)]
    exact BitVec.extractLsb'_append_eq_right
  have h3 : (b0 ++ b1 ++ b2 ++ b3).extractLsb' 0 8 = b3 := BitVec.extractLsb'_append_eq_right
  rw [packF32, h0, h1, h2, h3]

theorem unpackF32_packF32 (p : Word32) : unpackF32 (packF32 p) = some p :=
  congrArg some (packF32_bytes_append p)

theorem exists_unpackU8_of_length (bs : List Byte) (h : bs.length = 1) :
    ∃ v, unpackU8 bs = some v ∧ packU8 v = bs := by
  obtain ⟨b, rfl⟩ := List.length_eq_one_iff.mp h
  exact ⟨b, rfl, rfl⟩

theorem exists_unpackF32_of_length (bs : List Byte) (h : bs.length = 4) :
    ∃ p, unpackF32 bs = some p ∧ packF32 p = bs := by
  obtain ⟨b0, b1, b2, b3, rfl⟩ := List.length_eq_four.mp h
  exact ⟨_, rfl, packF32_append b0 b1 b2 b3⟩

/-- Settles O9: a byte is its own packing, for both byte types, and a pattern is cut into the four bytes
it is put together of. -/
theorem packAndUnpackAreInverse : Obligations.PackAndUnpackAreInverse := by
  unfold Obligations.PackAndUnpackAreInverse
  exact ⟨fun _ => rfl, fun _ => rfl, unpackF32_packF32, exists_unpackU8_of_length,
    exists_unpackU8_of_length, exists_unpackF32_of_length, rfl⟩

end Sys2Proof.Machine
end

section
/-! PROOFS. The GETs (42_unpack.md R134 to R137): their words, the field present at an offset, and the
field that is not. -/

namespace Sys2Proof.Machine

/-- An opcode, 16 zeros and an offset: the offset is the operand of format O (R62). -/
theorem op_append_zeros_append_offset (op : Byte) (o : Word16) :
    (op ++ 0#16) ++ o = op ++ o.zeroExtend 32 := by
  rw [BitVec.append_assoc, BitVec.zeroExtend, BitVec.setWidth_eq_append (by decide)]
  rfl

/-- The words of a command whose argument is an offset (R64). -/
theorem decode_offset_word (i : Instr) (m : Mnemonic) (o : Word16) (hm : i.mnemonic = m)
    (harg : i.arg = o.zeroExtend 32) : decode ((m.op ++ 0#16) ++ o) = .ok i := by
  rw [op_append_zeros_append_offset, ← hm, ← harg]
  exact decode_encode i

theorem exec_getI8_of_byte (s : State) (o : Word16) (b : Byte)
    (h : Memory.byte s.buf o.toNat = some b) :
    exec (.getI8 o) s = .next (s.answer ⟨b.signExtend 32, .noError, .none⟩) := by
  have hread : Memory.read s.buf (offset o) 1 = some [b] := Memory.read_one _ _ b h
  simp only [exec, execGetI8, hread, Option.bind_some, unpackI8, Option.map_some,
    respondField_eq, dataI8]

/-- A byte below LEN is present (R23). -/
theorem Memory.byte_of_lt (m : Memory) (off : Nat) (h : off < m.length) :
    Memory.byte m off = some m[off] := List.getElem?_eq_getElem h

/-- A four-byte read that is admitted gives the bytes at the four offsets, in order. -/
theorem Memory.read_four (m : Memory) (off : Nat) (h : off + 4 ≤ m.length) :
    Memory.read m off 4 = some [m[off], m[off + 1], m[off + 2], m[off + 3]] := by
  rw [Memory.read_eq_some]
  refine ⟨h, ?_⟩
  rw [List.drop_eq_getElem_cons (by omega), List.drop_eq_getElem_cons (by omega),
    List.drop_eq_getElem_cons (by omega), List.drop_eq_getElem_cons (by omega)]
  rfl

/-- A field not wholly present is no field, whatever would be made of its bytes (R134). -/
theorem respondField_bind_of_past_len (s : State) (off n : Nat) (unpack : List Byte → Option Word32)
    (h : s.buf.length < off + n) :
    respondField ((Memory.read s.buf off n).bind unpack) s =
      .next (s.answer ⟨0, .wrongDataSize, .none⟩) := by
  rw [(Memory.read_eq_none _ _ _).mpr h, Option.bind_none, respondField_eq]

theorem exec_getU8_past_len (o : Word16) (s : State) (h : s.buf.length ≤ o.toNat) :
    exec (.getU8 o) s = .next (s.answer ⟨0, .wrongDataSize, .none⟩) := by
  rw [exec, execGetU8, Option.map_bind]
  exact respondField_bind_of_past_len s _ 1 _ (Nat.lt_succ_of_le h)

theorem exec_getI8_past_len (o : Word16) (s : State) (h : s.buf.length ≤ o.toNat) :
    exec (.getI8 o) s = .next (s.answer ⟨0, .wrongDataSize, .none⟩) := by
  rw [exec, execGetI8, Option.map_bind]
  exact respondField_bind_of_past_len s _ 1 _ (Nat.lt_succ_of_le h)

/-- Settles O17: the word is an encoding; below LEN the byte is present, and from LEN on no byte is. -/
theorem getU8ReadsOneByteZeroExtended : Obligations.GetU8ReadsOneByteZeroExtended := by
  unfold Obligations.GetU8ReadsOneByteZeroExtended
  exact ⟨fun o => decode_offset_word (.getU8 o) .getU8 o rfl rfl, fun o s =>
    ⟨fun h => exec_getU8_of_byte s o _ (Memory.byte_of_lt s.buf o.toNat h), exec_getU8_past_len o s⟩⟩

/-- Settles O18: as O17; and the sign extension of a byte is the argument that PUT.I8 is encoded with. -/
theorem getI8ReadsOneByteSignExtended : Obligations.GetI8ReadsOneByteSignExtended := by
  unfold Obligations.GetI8ReadsOneByteSignExtended
  exact ⟨fun o => decode_offset_word (.getI8 o) .getI8 o rfl rfl, fun o s =>
    ⟨fun h => exec_getI8_of_byte s o _ (Memory.byte_of_lt s.buf o.toNat h), exec_getI8_past_len o s⟩,
    fun b => decode_encode (.putI8 b)⟩

/-- Settles O19: as O17, with a read of four bytes. -/
theorem getF32ReadsFourBytesBigEndian : Obligations.GetF32ReadsFourBytesBigEndian := by
  unfold Obligations.GetF32ReadsFourBytesBigEndian
  exact ⟨fun o => decode_offset_word (.getF32 o) .getF32 o rfl rfl, fun o s =>
    ⟨fun h => exec_getF32_of_read s o _ _ _ _ (Memory.read_four s.buf o.toNat h),
      respondField_bind_of_past_len s o.toNat 4 unpackF32⟩⟩

end Sys2Proof.Machine
end

section
/-! PROOFS. CHK (42_unpack.md R138) as a comparison of CRC and trailer, and what the unpack family leaves
unchanged (R141). -/

namespace Sys2Proof.Machine

/-- Two bytes put together, more significant first, are packed into themselves. -/
theorem pack16_append (b0 b1 : Byte) : pack16 (b0 ++ b1) = [b0, b1] := by
  have h0 : (b0 ++ b1).extractLsb' 8 8 = b0 := BitVec.extractLsb'_append_eq_left
  have h1 : (b0 ++ b1).extractLsb' 0 8 = b1 := BitVec.extractLsb'_append_eq_right
  rw [pack16, h0, h1]

theorem pack16_injective : Function.Injective pack16 := by
  intro c d h
  have hunpack : unpack16 (pack16 c) = unpack16 (pack16 d) := congrArg unpack16 h
  simpa only [pack16, unpack16, high_byte_append_low_byte, Option.some.injEq] using hunpack

/-- CHK of a frame whose trailer is `c` tells whether `c` is the CRC of the bytes before it (R138). -/
theorem exec_chk_of_trailer (k : Word16) (s : State) (m : List Byte) (c : Word16)
    (hk : k.toNat ≤ s.buf.length) (hbuf : s.buf = m ++ pack16 c) :
    exec (.chk k) s =
      .next (({ s with crc := crc16 m } : State).answer
        ⟨0, if crc16 m = c then .noError else .wrongCrc, .none⟩) := by
  obtain ⟨htrailer, hcovered⟩ := trailer_append_pack16 m c
  have hlong : 2 ≤ s.buf.length := by simp [hbuf, pack16]
  refine (execChk_long k s (by omega)).trans ?_
  simp only [hbuf, htrailer, hcovered, Option.some.injEq, eq_comm (a := c)]

/-- The shortest frame that passes is the trailer of the empty message (R138). -/
theorem exec_chk_passes_two_bytes_iff (k : Word16) (s : State) (hlen : s.buf.length = 2)
    (hk : k.toNat ≤ 2) :
    exec (.chk k) s =
        .next (({ s with crc := 0xFFFF#16 } : State).answer ⟨0, .noError, .none⟩) ↔
      s.buf = [0xFF, 0xFF] := by
  obtain ⟨b0, b1, hbytes⟩ := List.length_eq_two.mp hlen
  have hbuf : s.buf = [] ++ pack16 (b0 ++ b1) := by rw [hbytes, pack16_append, List.nil_append]
  have hexec := exec_chk_of_trailer k s [] (b0 ++ b1) (hlen ▸ hk) hbuf
  have hpasses : s.buf = [0xFF, 0xFF] ↔ 0xFFFF#16 = b0 ++ b1 := by
    rw [hbuf]
    exact (pack16_injective.eq_iff (b := 0xFFFF#16)).trans eq_comm
  have hempty : crc16 [] = 0xFFFF#16 := rfl
  rw [hexec, hpasses, hempty]
  by_cases hcrc : 0xFFFF#16 = b0 ++ b1
  · rw [if_pos hcrc]
    exact iff_of_true rfl hcrc
  · rw [if_neg hcrc]
    exact iff_of_false (by simp [State.answer]) hcrc

/-- CHK reads nothing of the state but BUF: its response, and the CRC it leaves when it computes one,
are those of any other state with the same bytes. -/
theorem exec_chk_of_same_bytes (k : Word16) (s s' : State) (hbuf : s'.buf = s.buf) :
    ∃ (t t' : State) (r : Response), exec (.chk k) s = .next t ∧ exec (.chk k) s' = .next t' ∧
      t.responses = s.responses ++ [r] ∧ t'.responses = s'.responses ++ [r] ∧
      (r.err ≠ .wrongDataSize → t'.crc = t.crc) := by
  by_cases hshort : s.buf.length < k.toNat ∨ s.buf.length < 2
  · exact ⟨_, _, _, execChk_short k s hshort, execChk_short k s' (hbuf ▸ hshort), rfl, rfl,
      fun herr => absurd rfl herr⟩
  · have hexec' := execChk_long k s' (hbuf ▸ hshort)
    rw [hbuf] at hexec'
    exact ⟨_, _, _, execChk_long k s hshort, hexec', rfl, rfl, fun _ => rfl⟩

/-- Settles O20: CHK as a comparison of the CRC with the trailer, `pack16` making the last two bytes of
their own value. -/
theorem chkTestsLengthThenTrailer : Obligations.ChkTestsLengthThenTrailer := by
  unfold Obligations.ChkTestsLengthThenTrailer
  refine ⟨fun k => decode_offset_word (.chk k) .chk k rfl rfl, execChk_short,
    fun k s m b0 b1 hk hbuf => ?_, exec_chk_passes_two_bytes_iff, exec_chk_of_same_bytes⟩
  exact exec_chk_of_trailer k s m (b0 ++ b1) hk (by rw [hbuf, pack16_append])

/-- A GET or a CHK writes CRC at most, and gives one response (R141). -/
theorem exec_get_or_chk_writes_only_crc (o : Word16) (i : Instr)
    (hi : i ∈ [Instr.getU8 o, .getI8 o, .getF32 o, .chk o]) (s : State) :
    ∃ (c : Word16) (r : Response), exec i s = .next (({ s with crc := c } : State).answer r) := by
  simp only [List.mem_cons, List.not_mem_nil, or_false] at hi
  obtain rfl | rfl | rfl | rfl := hi
  · exact ⟨s.crc, _, respondField_eq _ s⟩
  · exact ⟨s.crc, _, respondField_eq _ s⟩
  · exact ⟨s.crc, _, respondField_eq _ s⟩
  · by_cases hshort : s.buf.length < o.toNat ∨ s.buf.length < 2
    · exact ⟨s.crc, _, execChk_short o s hshort⟩
    · exact ⟨crc16 (covered s.buf), _, execChk_long o s hshort⟩

/-- Settles O23: what is written is CRC and the one response, so the rest is unchanged. -/
theorem getsAndChkAlwaysRespondAndKeepTheBuffer :
    Obligations.GetsAndChkAlwaysRespondAndKeepTheBuffer := by
  unfold Obligations.GetsAndChkAlwaysRespondAndKeepTheBuffer
  intro o i hi s
  obtain ⟨c, r, hexec⟩ := exec_get_or_chk_writes_only_crc o i hi s
  exact ⟨_, r, hexec, rfl, rfl, rfl, rfl, rfl, rfl⟩

end Sys2Proof.Machine
end

section
/-! PROOFS. The control family (43_control.md R150, R151): what follows a CLR, and the words and
values of RD.SR. -/

namespace Sys2Proof.Machine

/-- With no byte in BUF no field is present, and no trailer (R134, R138). -/
theorem exec_get_or_chk_of_nil (o : Word16) (i : Instr)
    (hi : i ∈ [Instr.getU8 o, .getI8 o, .getF32 o, .chk o]) (t : State) (ht : t.buf = []) :
    exec i t = .next (t.answer ⟨0, .wrongDataSize, .none⟩) := by
  have hlen : t.buf.length = 0 := List.length_eq_zero_iff.mpr ht
  simp only [List.mem_cons, List.not_mem_nil, or_false] at hi
  obtain rfl | rfl | rfl | rfl := hi
  · exact exec_getU8_past_len o t (by omega)
  · exact exec_getI8_past_len o t (by omega)
  · exact respondField_bind_of_past_len t (offset o) 4 unpackF32 (by omega)
  · exact execChk_short o t (by omega)

theorem buf_of_exec_clr (s t : State) (h : exec .clr s = .next t) : t.buf = [] := by
  cases h
  rfl

/-- Settles O24: the word is an encoding, the effect is the meaning, and what follows sees an empty
BUF. -/
theorem clrEmptiesTheBufferAndKeepsTheFlags : Obligations.ClrEmptiesTheBufferAndKeepsTheFlags := by
  unfold Obligations.ClrEmptiesTheBufferAndKeepsTheFlags
  exact ⟨decode_encode .clr, fun _ => rfl, fun s t hclr o i hi =>
    exec_get_or_chk_of_nil o i hi t (buf_of_exec_clr s t hclr)⟩

/-- A 32-bit argument names a register exactly when it is below 4 (R62, R63). -/
theorem format_R_admits_iff (arg : Word32) : Format.R.admits arg = true ↔ arg.toNat < 4 := by
  rw [Format.admits, beq_iff_eq, ← BitVec.toNat_inj, BitVec.extractLsb'_toNat,
    Nat.shiftRight_eq_div_pow]
  have hlt := arg.isLt
  change arg.toNat / 4 % 2 ^ 30 = 0 ↔ arg.toNat < 4
  omega

/-- A word of RD.SR with an argument of no register is illegal (R66). -/
theorem decode_rdSr_word_of_four_le (arg : Word32) (h : 4 ≤ arg.toNat) :
    decode (0x41#8 ++ arg) = .error (.argument .rdSr arg) :=
  (decode_op_append .rdSr arg).trans (if_neg (mt (format_R_admits_iff arg).mp (by omega)))

/-- `BUF_SIZE` fits in the data of a response, so SR3 is that number (R6, R31). -/
theorem toNat_statusReg_cap (s : State) : (statusReg s .cap).toNat = Config.bufSize := by
  obtain ⟨-, hle⟩ := bufSize_range
  exact (BitVec.toNat_ofNat _ 32).trans (Nat.mod_eq_of_lt (by omega))

/-- Settles O25: the four words are encodings, a larger argument encodes no command, and the responses are
the status registers. -/
theorem rdSrReturnsTheStatusRegister : Obligations.RdSrReturnsTheStatusRegister := by
  unfold Obligations.RdSrReturnsTheStatusRegister
  exact ⟨decode_encode (.rdSr .crc), decode_encode (.rdSr .len), decode_encode (.rdSr .status),
    decode_encode (.rdSr .cap), fun arg harg => ⟨_, decode_rdSr_word_of_four_le arg harg⟩,
    fun s => ⟨rfl, rfl, rfl, _, rfl, toNat_statusReg_cap s⟩⟩

end Sys2Proof.Machine
end

section
/-! PROOFS. The commands a frame macro issues (48_frame_macros.md R160), run in order with no fault: what
CRC.UPDs fold into CRC, what PUTs append to BUF, and what GET.U8s read out of it. -/

namespace Sys2Proof.Machine

/-- The commands, issued in order from the first state, all respond without a fault and leave the
second. -/
inductive RunsClean : List Instr → State → State → Prop where
  | nil (s : State) : RunsClean [] s s
  | cons {i : Instr} {is : List Instr} {s t u : State} {r : Response}
      (hexec : exec i s = .next (t.answer r)) (hr : r.fault = .none)
      (hrest : RunsClean is (t.answer r) u) : RunsClean (i :: is) s u

theorem RunsClean.append {is js : List Instr} {s t u : State} (his : RunsClean is s t)
    (hjs : RunsClean js t u) : RunsClean (is ++ js) s u := by
  induction his with
  | nil s => exact hjs
  | cons hexec hr _ ih => exact .cons hexec hr (ih hjs)

/-- A clean run as the host sees it: the responses of `issueAll`, none with a fault (R160). -/
theorem RunsClean.issueAll_eq {is : List Instr} {s t : State} (h : RunsClean is s t) :
    ∃ rs, issueAll is s = some (t, rs) ∧ clean rs = true := by
  induction h with
  | nil s => exact ⟨[], rfl, rfl⟩
  | cons hexec hr _ ih =>
    obtain ⟨rs, hrun, hclean⟩ := ih
    refine ⟨_ :: rs, issueAll_cons _ _ _ _ _ _ _ (issue_of_exec _ _ _ _ hexec) hrun, ?_⟩
    simpa [clean, hr] using hclean

/-- CRC.UPDs fold their bytes into CRC and leave BUF (R95). -/
theorem runsClean_crcUpds (m : List Byte) (s : State) :
    ∃ t, RunsClean (m.map .crcUpd) s t ∧ t.crc = m.foldl crcByte s.crc ∧ t.buf = s.buf := by
  induction m generalizing s with
  | nil => exact ⟨s, .nil s, rfl, rfl⟩
  | cons b m ih =>
    obtain ⟨t, hrun, hcrc, hbuf⟩ :=
      ih (({ s with crc := crcByte s.crc b } : State).answer ⟨0, .noError, .none⟩)
    exact ⟨t, .cons rfl rfl hrun, hcrc, hbuf⟩

/-- The bytes that a PUT of a field appends (R115 to R117); none for any other command. -/
def fieldBytes : Instr → Option (List Byte)
  | .putU8 b => some (packU8 b)
  | .putI8 b => some (packI8 b)
  | .putF32 p => some (packF32 p)
  | _ => none

theorem exec_of_fieldBytes (i : Instr) (bs : List Byte) (s : State) (h : fieldBytes i = some bs) :
    exec i s = put Config.bufSize bs s := by
  cases i with
  | putU8 b | putI8 b | putF32 p => cases h; rfl
  | _ => cases h

/-- The bytes that PUTs of fields append, in order; none if one of the commands is another. -/
def bodyBytes : List Instr → Option (List Byte)
  | [] => some []
  | i :: is => (fieldBytes i).bind fun bs => (bodyBytes is).map (bs ++ ·)

theorem bodyBytes_cons_eq_some (i : Instr) (is : List Instr) (body : List Byte) :
    bodyBytes (i :: is) = some body ↔
      ∃ bs rest, fieldBytes i = some bs ∧ bodyBytes is = some rest ∧ bs ++ rest = body := by
  simp [bodyBytes, Option.bind_eq_some_iff]

/-- The bytes that LOADs append are the bytes loaded (R70). -/
theorem bodyBytes_loads (m : List Byte) : bodyBytes (m.map .load) = some m := by
  induction m with
  | nil => rfl
  | cons b m ih => exact (bodyBytes_cons_eq_some _ _ _).mpr ⟨[b], m, rfl, ih, rfl⟩

/-- PUTs whose fields all fit succeed, and leave their fields at the end of BUF in order. -/
theorem runsClean_puts (puts : List Instr) (body : List Byte) (s : State)
    (hbody : bodyBytes puts = some body) (hfit : s.buf.length + body.length ≤ Config.bufSize) :
    ∃ t, RunsClean puts s t ∧ t.buf = s.buf ++ body := by
  induction puts generalizing s body with
  | nil =>
    cases hbody
    exact ⟨s, .nil s, (List.append_nil _).symm⟩
  | cons i is ih =>
    obtain ⟨bs, rest, hi, his, rfl⟩ := (bodyBytes_cons_eq_some i is body).mp hbody
    rw [List.length_append] at hfit
    have hput := (exec_of_fieldBytes i bs s hi).trans (put_fits _ bs s (by omega))
    obtain ⟨t, hrun, hbuf⟩ := ih rest
      (({ s with buf := s.buf ++ bs } : State).answer ⟨0, .noError, .none⟩) his
      (by rw [State.answer_buf, List.length_append]; omega)
    exact ⟨t, .cons hput rfl hrun, hbuf.trans (List.append_assoc _ _ _)⟩

/-- After CLR, fields that fit in `BUF_SIZE` are all that BUF holds. -/
theorem runsClean_clr_puts (puts : List Instr) (body : List Byte) (s : State)
    (hbody : bodyBytes puts = some body) (hfit : body.length ≤ Config.bufSize) :
    ∃ t, RunsClean (.clr :: puts) s t ∧ t.buf = body := by
  obtain ⟨t, hrun, hbuf⟩ := runsClean_puts puts body
    (({ s with buf := [] } : State).answer ⟨0, .noError, .none⟩) hbody (by simpa using hfit)
  exact ⟨t, .cons rfl rfl hrun, hbuf⟩

/-- GET.U8 at the offsets of the bytes that stand after `pre` reads those bytes, in order. -/
theorem issueAll_getU8s (pre bs : List Byte) (s : State) (hbuf : s.buf = pre ++ bs)
    (hlen : s.buf.length ≤ 65535) :
    ∃ t gs,
      issueAll ((List.range' pre.length bs.length).map fun k => .getU8 (.ofNat 16 k)) s =
        some (t, gs) ∧ gs.map dataByte = bs := by
  induction bs generalizing pre s with
  | nil => exact ⟨s, [], rfl, rfl⟩
  | cons b bs ih =>
    have hpre : pre.length < 2 ^ 16 := by
      rw [hbuf, List.length_append] at hlen
      omega
    have hoff : (BitVec.ofNat 16 pre.length).toNat = pre.length + 0 := Nat.mod_eq_of_lt hpre
    have hget := exec_getU8_of_appended s pre (b :: bs) b 0 _ hbuf hoff rfl
    obtain ⟨t, gs, hrest, hbytes⟩ := ih (pre ++ [b]) (s.answer ⟨b.zeroExtend 32, .noError, .none⟩)
      (by simp [hbuf]) hlen
    rw [List.length_append, List.length_singleton] at hrest
    refine ⟨t, _ :: gs, issueAll_cons _ _ _ _ _ _ _ (issue_of_exec _ _ _ _ hget) hrest, ?_⟩
    rw [List.map_cons, hbytes, dataByte, extractLsb'_zeroExtend_low b (by decide)]

/-- Reading out as many bytes as BUF holds gives the bytes of BUF (R162). -/
theorem issueAll_readOut (n : Nat) (s : State) (hn : s.buf.length = n) (hlen : n ≤ 65535) :
    ∃ t gs, issueAll (readOut n) s = some (t, gs) ∧ gs.map dataByte = s.buf := by
  rw [readOut, List.range_eq_range', ← hn]
  exact issueAll_getU8s [] s.buf s rfl (hn ▸ hlen)

end Sys2Proof.Machine
end

section
/-! PROOFS. The macro CRC16 and the encode macros (48_frame_macros.md R161 to R163). -/

namespace Sys2Proof.Machine

theorem issue_crcRd (s : State) :
    issue .crcRd s =
      some (s.answer ⟨data16 s.crc, .noError, .none⟩, ⟨data16 s.crc, .noError, .none⟩) :=
  issue_of_exec .crcRd s s _ rfl

/-- Settles O52: after CRC.INIT the CRC.UPDs fold from the initial register, and CRC.RD returns what they
leave; none of the three writes BUF. -/
theorem macroCrc16ReturnsTheCrcOfItsBytes : Obligations.MacroCrc16ReturnsTheCrcOfItsBytes := by
  unfold Obligations.MacroCrc16ReturnsTheCrcOfItsBytes
  intro m s
  obtain ⟨t, hupds, hcrc, hbuf⟩ :=
    runsClean_crcUpds m (({ s with crc := crcInitial } : State).answer ⟨0, .noError, .none⟩)
  obtain ⟨rs, hrun, -⟩ :=
    RunsClean.issueAll_eq (.cons (i := .crcInit) (s := s) rfl rfl hupds)
  have hdata : (data16 t.crc).extractLsb' 0 16 = crc16 m :=
    (extractLsb'_zeroExtend_low t.crc (by decide)).trans hcrc
  refine ⟨t.answer ⟨data16 t.crc, .noError, .none⟩, ?_, hbuf,
    congrArg (fun buf : Memory => BitVec.ofNat 16 buf.length) hbuf⟩
  simp only [macroCrc16, hrun, issue_crcRd, hdata]

/-- An encode macro whose frame fits: the fields its PUTs append, then the trailer, are read out. -/
theorem encodeFrame_of_bodyBytes (puts : List Instr) (body : List Byte) (n : Nat) (s : State)
    (hbody : bodyBytes puts = some body) (hn : body.length + 2 = n) (hfit : n ≤ Config.bufSize) :
    ∃ t, encodeFrame puts n s = some (t, some (body ++ pack16 (crc16 body))) := by
  obtain ⟨t, hputs, rfl⟩ := runsClean_clr_puts puts body s hbody (by omega)
  have hcrc := putCrc_fits Config.bufSize t (by omega)
  obtain ⟨rs, hrun, hclean⟩ := (hputs.append (.cons (i := .putCrc) hcrc rfl (.nil _))).issueAll_eq
  obtain ⟨u, gs, hread, hbytes⟩ := issueAll_readOut n
    (({ t with crc := crc16 t.buf, buf := t.buf ++ pack16 (crc16 t.buf) } : State).answer
      ⟨data16 (crc16 t.buf), .noError, .none⟩) (by simpa [pack16] using hn)
    (hfit.trans bufSize_range.2)
  refine ⟨u, ?_⟩
  rw [List.cons_append] at hrun
  simp only [encodeFrame, hrun, hclean, if_true, hread, hbytes, State.answer_buf]

/-- A vector as the list of its entries, each named by its index, as the tables of R162 and R163 do. -/
theorem vector_toList_eq_ofFn {n : Nat} (v : Vector Byte n) :
    v.toList = List.ofFn fun i : Fin n => v[i] := by
  rw [← Vector.toList_ofFn]
  simp

/-- Settles O53: the PUTs append the fields of the table, which with their trailer fit in the smallest
BUF. -/
theorem encodeControlV1BuildsTheFrame : Obligations.EncodeControlV1BuildsTheFrame := by
  unfold Obligations.EncodeControlV1BuildsTheFrame
  intro m s body
  have hbody : bodyBytes (controlV1Puts m) = some body := by
    rw [controlV1Puts, commonPuts, vector_toList_eq_ofFn, vector_toList_eq_ofFn]
    rfl
  exact encodeFrame_of_bodyBytes _ body 24 s hbody rfl (le_trans (by decide) bufSize_range.1)

/-- Settles O54: as O53, with the encoder's header and version and two more fields. -/
theorem encodeControlV2BuildsTheFrame : Obligations.EncodeControlV2BuildsTheFrame := by
  unfold Obligations.EncodeControlV2BuildsTheFrame
  intro m s body
  have hbody : bodyBytes (controlV2Puts m) = some body := by
    rw [controlV2Puts, commonPuts, vector_toList_eq_ofFn, vector_toList_eq_ofFn]
    rfl
  exact encodeFrame_of_bodyBytes _ body 35 s hbody rfl (le_trans (by decide) bufSize_range.1)

end Sys2Proof.Machine
end

section
/-! PROOFS. The common decode procedure (48_frame_macros.md R166) by the verdict of its CHK, and
GET_VERSION (R170). -/

namespace Sys2Proof.Machine

/-- The LOADs of a frame that BUF can hold leave the frame in BUF, and then CHK decides: only after
NoError are the fields read. -/
theorem decodeFrame_cases (k : Word16) (fields : List Instr) (m : List Byte) (s : State)
    (hfit : m.length ≤ Config.bufSize) :
    ∃ t, t.buf = m ∧ ∀ (u : State) (r : Response), exec (.chk k) t = .next (u.answer r) →
      (r.err = .noError → ∀ v gs, issueAll fields (u.answer r) = some (v, gs) →
        decodeFrame k fields m s = some (v, some (.noError, gs))) ∧
      (r.err ≠ .noError →
        decodeFrame k fields m s = some (u.answer r, some (r.err, []))) := by
  obtain ⟨t, hloads, hbuf⟩ := runsClean_clr_puts _ m s (bodyBytes_loads m) hfit
  obtain ⟨rs, hrun, hclean⟩ := hloads.issueAll_eq
  refine ⟨t, hbuf, fun u r hchk => ?_⟩
  have hissue := issue_of_exec _ t u r hchk
  constructor
  · intro herr v gs hfields
    simp only [decodeFrame, hrun, hclean, hissue, herr, hfields, if_true]
  · intro herr
    simp only [decodeFrame, hrun, hclean, hissue, herr, if_true, if_false]

/-- A frame below the minimum answers WrongDataSize, and no field is read. -/
theorem decodeFrame_short (k : Word16) (fields : List Instr) (m : List Byte) (s : State)
    (hfit : m.length ≤ Config.bufSize) (hshort : m.length < k.toNat) :
    ∃ t, decodeFrame k fields m s = some (t, some (.wrongDataSize, [])) := by
  obtain ⟨t, rfl, hdecode⟩ := decodeFrame_cases k fields m s hfit
  exact ⟨_, (hdecode t _ (execChk_short k t (.inl hshort))).2 nofun⟩

/-- A frame whose trailer is not its CRC answers WrongCrc, and no field is read. -/
theorem decodeFrame_wrongCrc (k : Word16) (fields : List Instr) (m : List Byte) (c : Word16)
    (s : State) (hfit : m.length + 2 ≤ Config.bufSize) (hk : k.toNat ≤ m.length + 2)
    (hc : c ≠ crc16 m) :
    ∃ t, decodeFrame k fields (m ++ pack16 c) s = some (t, some (.wrongCrc, [])) := by
  have hlen : (m ++ pack16 c).length = m.length + 2 := List.length_append
  obtain ⟨t, hbuf, hdecode⟩ := decodeFrame_cases k fields (m ++ pack16 c) s (by omega)
  have hchk := exec_chk_of_trailer k t m c (by rw [hbuf]; omega) hbuf
  rw [if_neg hc.symm] at hchk
  exact ⟨_, (hdecode _ _ hchk).2 nofun⟩

/-- A frame with its own trailer answers NoError, with the responses of the field reads on a state that
holds the frame in BUF. -/
theorem decodeFrame_good (k : Word16) (fields : List Instr) (m : List Byte) (s : State)
    (hfit : m.length + 2 ≤ Config.bufSize) (hk : k.toNat ≤ m.length + 2) :
    ∃ t : State, t.buf = m ++ pack16 (crc16 m) ∧ ∀ u gs, issueAll fields t = some (u, gs) →
      decodeFrame k fields (m ++ pack16 (crc16 m)) s = some (u, some (.noError, gs)) := by
  have hlen : (m ++ pack16 (crc16 m)).length = m.length + 2 := List.length_append
  obtain ⟨t, hbuf, hdecode⟩ := decodeFrame_cases k fields (m ++ pack16 (crc16 m)) s (by omega)
  have hchk := exec_chk_of_own_trailer t m k hbuf (by rw [hbuf]; omega)
  refine ⟨_, ?_, (hdecode _ _ hchk).1 rfl⟩
  exact hbuf

/-- GET_VERSION's two reads on a BUF of at least two bytes. -/
theorem issueAll_version_reads (t : State) (header version : Byte) (post : List Byte)
    (hbuf : t.buf = header :: version :: post) :
    ∃ u r0 r1, issueAll [.getU8 0, .getI8 1] t = some (u, [r0, r1]) ∧ dataByte r1 = version := by
  have hheader := exec_getU8_of_byte t 0 header (by rw [hbuf]; rfl)
  have hversion := exec_getI8_of_byte (t.answer ⟨header.zeroExtend 32, .noError, .none⟩) 1 version
    (by rw [State.answer_buf, hbuf]; rfl)
  exact ⟨_, _, _, issueAll_cons _ _ _ _ _ _ _ (issue_of_exec _ _ _ _ hheader)
    (issueAll_cons _ _ _ _ _ _ _ (issue_of_exec _ _ _ _ hversion) rfl),
    extractLsb'_signExtend_low version⟩

/-- Settles O58: a good frame goes through both reads; a short one and a damaged one stop at CHK, and both
error codes make the same 0. -/
theorem getVersionReturnsTheVersionOrZero : Obligations.GetVersionReturnsTheVersionOrZero := by
  unfold Obligations.GetVersionReturnsTheVersionOrZero
  refine ⟨?good, ?short, ?damaged⟩
  case good =>
    rintro m post header version s rfl hfit
    obtain ⟨t, hbuf, hdecode⟩ := decodeFrame_good 4 [.getU8 0, .getI8 1]
      (header :: version :: post) s hfit (by simp)
    obtain ⟨u, r0, r1, hreads, hdata⟩ := issueAll_version_reads t header version _ hbuf
    exact ⟨u, by simp only [getVersion, hdecode u _ hreads, hdata]⟩
  case short =>
    intro m s hshort
    have hfit : m.length ≤ Config.bufSize := by
      have hrange := bufSize_range
      omega
    obtain ⟨t, hdecode⟩ := decodeFrame_short 4 [.getU8 0, .getI8 1] m s hfit hshort
    exact ⟨t, by simp only [getVersion, hdecode]⟩
  case damaged =>
    intro m c s hlen hfit hc
    obtain ⟨t, hdecode⟩ := decodeFrame_wrongCrc 4 [.getU8 0, .getI8 1] m c s hfit
      (Nat.add_le_add_right hlen 2) hc
    exact ⟨t, by simp only [getVersion, hdecode]⟩

end Sys2Proof.Machine
end

section
/-! PROOFS. Faults and flags (60_exceptions.md R193 to R199): what a PUT that does not fit does, what any
command word can do to the state, and so that a sticky flag is cleared by a reset alone. -/

namespace Sys2Proof.Machine

/-- An illegal word changes nothing but ILL, and its response says so (R193). -/
theorem runWord_illegal_eq (w : CommandWord) (e : Illegal) (s : State) (h : decode w = .error e) :
    runWord w s = .next (({ s with ill := true } : State).answer ⟨0, .noError, .ill⟩) :=
  (runWord_illegal w e s h).trans (illegal_eq s)

/-- A command that appends and does not fit changes nothing but OVF, and its response says so (R194). -/
theorem exec_of_appends_overflows (i : Instr) (n : Nat) (s : State) (hi : appends i = some n)
    (h : Config.bufSize < s.buf.length + n) :
    exec i s = .next (({ s with ovf := true } : State).answer ⟨0, .noError, .ovf⟩) := by
  cases i with
  | putU8 b | putI8 b | putF32 p => cases hi; exact put_overflows_eq _ _ s h
  | putCrc => cases hi; exact (putCrc_overflows _ s h).trans (overflow_eq s)
  | _ => cases hi

/-- A command that appends and fits writes BUF and CRC at most, and gives one response. -/
theorem exec_of_appends_fits (i : Instr) (n : Nat) (s : State) (hi : appends i = some n)
    (h : s.buf.length + n ≤ Config.bufSize) :
    ∃ (crc : Word16) (buf : Memory) (r : Response),
      exec i s = .next (({ s with crc := crc, buf := buf } : State).answer r) := by
  cases i with
  | putU8 b | putI8 b | putF32 p => cases hi; exact ⟨s.crc, _, _, put_fits _ _ s h⟩
  | putCrc => cases hi; exact ⟨_, _, _, putCrc_fits _ s h⟩
  | _ => cases hi

/-- The state after a command: CRC and BUF as given, each flag set if it was or is now set, and one
response more. -/
def State.written (s : State) (crc : Word16) (buf : Memory) (ill ovf : Bool) (r : Response) : State :=
  ({ s with crc := crc, buf := buf, ill := ill || s.ill, ovf := ovf || s.ovf } : State).answer r

@[simp] theorem State.written_ill (s : State) (crc : Word16) (buf : Memory) (ill ovf : Bool)
    (r : Response) : (s.written crc buf ill ovf r).ill = (ill || s.ill) := rfl

@[simp] theorem State.written_ovf (s : State) (crc : Word16) (buf : Memory) (ill ovf : Bool)
    (r : Response) : (s.written crc buf ill ovf r).ovf = (ovf || s.ovf) := rfl

/-- A command that appends sets OVF at most; ILL is no command's. -/
theorem exec_of_appends_eq_written (i : Instr) (n : Nat) (s : State) (hi : appends i = some n) :
    ∃ crc buf ovf r, exec i s = .next (s.written crc buf false ovf r) := by
  obtain hover | hfit := Nat.lt_or_ge Config.bufSize (s.buf.length + n)
  · exact ⟨s.crc, s.buf, true, _, exec_of_appends_overflows i n s hi hover⟩
  · obtain ⟨crc, buf, r, hexec⟩ := exec_of_appends_fits i n s hi hfit
    exact ⟨crc, buf, false, r, hexec⟩

/-- A GET or a CHK sets no flag. -/
theorem exec_get_or_chk_eq_written (o : Word16) (i : Instr)
    (hi : i ∈ [Instr.getU8 o, .getI8 o, .getF32 o, .chk o]) (s : State) :
    ∃ crc buf ovf r, exec i s = .next (s.written crc buf false ovf r) := by
  obtain ⟨crc, r, hexec⟩ := exec_get_or_chk_writes_only_crc o i hi s
  exact ⟨crc, s.buf, false, r, hexec⟩

/-- What any command can do: it leaves ILL and what is pending, and clears no OVF. -/
theorem exec_eq_written (i : Instr) (s : State) :
    ∃ crc buf ovf r, exec i s = .next (s.written crc buf false ovf r) := by
  cases i with
  | crcInit | crcUpd b | clr | rdSr r => exact ⟨_, _, false, _, rfl⟩
  | putU8 b | putI8 b => exact exec_of_appends_eq_written _ 1 s rfl
  | putF32 p => exact exec_of_appends_eq_written _ 4 s rfl
  | putCrc => exact exec_of_appends_eq_written _ 2 s rfl
  | getU8 o | getI8 o | getF32 o | chk o => exact exec_get_or_chk_eq_written o _ (by simp) s

/-- What any command word can do, a legal one as its command and any other by the illegal-word fault. -/
theorem runWord_eq_written (w : CommandWord) (s : State) :
    ∃ crc buf ill ovf r, runWord w s = .next (s.written crc buf ill ovf r) := by
  cases hw : decode w with
  | ok i =>
    obtain ⟨crc, buf, ovf, r, hexec⟩ := exec_eq_written i s
    exact ⟨crc, buf, false, ovf, r, (runWord_legal w i s hw).trans hexec⟩
  | error e => exact ⟨s.crc, s.buf, true, false, _, runWord_illegal_eq w e s hw⟩

/-- A flag that is set stays set over a step, unless the host asserted reset (R195). -/
theorem step_resets_or_keeps_flags (s t : State) (h : step s = .next t) :
    (∃ rest, s.pending = .reset :: rest ∨ ∃ w, s.pending = .resetDuring w :: rest) ∨
      (s.ill = true → t.ill = true) ∧ (s.ovf = true → t.ovf = true) := by
  cases hp : s.pending with
  | nil =>
    rw [step_idle s hp] at h
    cases h
    exact .inr ⟨id, id⟩
  | cons e rest =>
    cases e with
    | reset => exact .inl ⟨rest, .inl rfl⟩
    | resetDuring w => exact .inl ⟨rest, .inr ⟨w, rfl⟩⟩
    | command w =>
      obtain ⟨crc, buf, ill, ovf, r, hrun⟩ := runWord_eq_written w { s with pending := rest }
      rw [step_event s _ rest hp, handle, hrun] at h
      cases h
      exact .inr ⟨fun hill => by simp [hill], fun hovf => by simp [hovf]⟩

/-- The block takes any one thing the host does, and leaves what else is pending (R199). -/
theorem handle_keeps_pending (e : HostEvent) (s : State) :
    ∃ t, handle e s = .next t ∧ t.pending = s.pending := by
  cases e with
  | reset | resetDuring w => exact ⟨resetBlock s, rfl, rfl⟩
  | command w =>
    obtain ⟨crc, buf, ill, ovf, r, hrun⟩ := runWord_eq_written w s
    exact ⟨_, hrun, rfl⟩

/-- Settles O26: the step takes the word, which is illegal. -/
theorem illegalWordSetsIllAndNothingElse : Obligations.IllegalWordSetsIllAndNothingElse := by
  unfold Obligations.IllegalWordSetsIllAndNothingElse
  intro w e s rest hw hp
  exact (step_event s _ rest hp).trans (runWord_illegal_eq w e _ hw)

/-- Settles O27: the PUT refused left BUF as it was, so a byte that fitted before it fits after it. -/
theorem overflowingPutSetsOvfAndNothingElse : Obligations.OverflowingPutSetsOvfAndNothingElse := by
  unfold Obligations.OverflowingPutSetsOvfAndNothingElse
  refine ⟨exec_of_appends_overflows, fun i n b s t hi hover hfit h => ?_⟩
  cases (exec_of_appends_overflows i n s hi hover).symm.trans h
  exact put_fits Config.bufSize (packU8 b) _ hfit

/-- Settles O28: a step that is no reset keeps each flag that is set, and reset clears both. -/
theorem onlyResetClearsTheStickyFlags : Obligations.OnlyResetClearsTheStickyFlags := by
  unfold Obligations.OnlyResetClearsTheStickyFlags
  refine ⟨fun s t h hcleared => ?_, fun s rest hp => ⟨_, step_event s _ rest hp, rfl, rfl⟩⟩
  refine (step_resets_or_keeps_flags s t h).resolve_right fun ⟨hill, hovf⟩ => ?_
  obtain ⟨hset, hclear⟩ | ⟨hset, hclear⟩ := hcleared
  · exact absurd (hill hset) (by simp [hclear])
  · exact absurd (hovf hset) (by simp [hclear])

/-- Settles O40: the word is run on the state with the rest pending, which no command touches, and then
the next thing is taken from the head of it. -/
theorem everyCommandGetsItsResponse : Obligations.EveryCommandGetsItsResponse := by
  unfold Obligations.EveryCommandGetsItsResponse
  intro s w e rest hp
  obtain ⟨crc, buf, ill, ovf, r, hrun⟩ := runWord_eq_written w { s with pending := e :: rest }
  obtain ⟨u, hnext, hu⟩ := handle_keeps_pending e
    { State.written { s with pending := e :: rest } crc buf ill ovf r with pending := rest }
  exact ⟨_, r, u, (step_event s _ _ hp).trans hrun, rfl, rfl,
    (step_event _ e rest rfl).trans hnext, hu⟩

end Sys2Proof.Machine
end

section
/-! PROOFS. Decoding and encoding (30_encoding.md R60 to R66) undo each other, and decoding agrees with the
opcode map as printed. -/

namespace Sys2Proof.Machine

/-- The written form of every command is one the assembler takes (R69). -/
theorem wellFormed_instr (i : Instr) : i.wellFormed = true := by
  cases i with
  | crcInit => exact Laws.OperandInRange.crcInit
  | crcUpd b => exact Laws.OperandInRange.crcUpd b
  | putU8 b => exact Laws.OperandInRange.putU8 b
  | putI8 b => exact Laws.OperandInRange.putI8 b
  | putF32 p => exact Laws.OperandInRange.putF32 p
  | putCrc => exact Laws.OperandInRange.putCrc
  | getU8 o => exact Laws.OperandInRange.getU8 o
  | getI8 o => exact Laws.OperandInRange.getI8 o
  | getF32 o => exact Laws.OperandInRange.getF32 o
  | chk k => exact Laws.OperandInRange.chk k
  | clr => exact Laws.OperandInRange.clr
  | rdSr r => exact Laws.OperandInRange.rdSr r

/-- A value is its bits from `n` on above its low `n` bits. -/
theorem high_append_low (n k : Nat) (v : BitVec (k + n)) :
    v.extractLsb' n k ++ v.extractLsb' 0 n = v := by
  rw [BitVec.extractLsb'_append_extractLsb'_eq_extractLsb' (by omega), BitVec.extractLsb'_eq_self]

/-- A word is its opcode above its argument (R60). -/
theorem cmdOp_append_cmdArg (w : CommandWord) : cmdOp w ++ cmdArg w = w :=
  high_append_low 32 8 w

theorem op_of_mnemonicOf (op : Byte) (m : Mnemonic) (h : mnemonicOf op = some m) : m.op = op :=
  eq_of_beq (List.find?_some (p := fun m : Mnemonic => m.op == op) h)

/-- The legal words (R65, R66): an opcode of the map above an argument its format admits. -/
theorem decode_eq_ok_iff (w : CommandWord) (i : Instr) :
    decode w = .ok i ↔
      ∃ m : Mnemonic, cmdOp w = m.op ∧ m.format.admits (cmdArg w) = true ∧
        m.withArg (cmdArg w) = i := by
  constructor
  · intro h
    rw [decode] at h
    split at h
    · cases h
    · next m hm =>
      split at h
      · next hadmits => exact ⟨m, (op_of_mnemonicOf _ m hm).symm, hadmits, Except.ok.inj h⟩
      · cases h
  · rintro ⟨m, hop, hadmits, rfl⟩
    have hword : w = m.op ++ cmdArg w := hop ▸ (cmdOp_append_cmdArg w).symm
    exact (congrArg decode hword).trans ((decode_op_append m _).trans (if_pos hadmits))

/-- Zeros above the low `n` bits are what widening those bits with zeros puts there. -/
theorem zeroExtend_extractLsb'_of_high_zero (n k : Nat) (arg : BitVec (k + n))
    (h : arg.extractLsb' n k = 0#k) : (arg.extractLsb' 0 n).zeroExtend (k + n) = arg := by
  calc (arg.extractLsb' 0 n).zeroExtend (k + n)
      = 0#k ++ arg.extractLsb' 0 n := (BitVec.setWidth_eq_append (by omega)).trans (by simp)
    _ = arg.extractLsb' n k ++ arg.extractLsb' 0 n := by rw [h]
    _ = arg := high_append_low n k arg

theorem bits_statusRegOf (n : BitVec 2) : (statusRegOf n).bits = n := by
  revert n
  decide

/-- An argument its format admits is the one the command read from it is encoded with: no bit of it is
ignored (R62, R63). -/
theorem arg_withArg (m : Mnemonic) (arg : Word32) (h : m.format.admits arg = true) :
    (m.withArg arg).arg = arg := by
  cases m with
  | crcInit | putCrc | clr | putI8 => exact (eq_of_beq h).symm
  | putF32 => rfl
  | crcUpd | putU8 => exact zeroExtend_extractLsb'_of_high_zero 8 24 arg (eq_of_beq h)
  | getU8 | getI8 | getF32 | chk =>
    exact zeroExtend_extractLsb'_of_high_zero 16 16 arg (eq_of_beq h)
  | rdSr =>
    exact (congrArg (BitVec.zeroExtend 32) (bits_statusRegOf _)).trans
      (zeroExtend_extractLsb'_of_high_zero 2 30 arg (eq_of_beq h))

@[simp] theorem mnemonic_withArg (m : Mnemonic) (arg : Word32) : (m.withArg arg).mnemonic = m := by
  cases m <;> rfl

theorem encode_of_decode (w : CommandWord) (i : Instr) (h : decode w = .ok i) : encode i = w := by
  obtain ⟨m, hop, hadmits, rfl⟩ := (decode_eq_ok_iff w i).mp h
  rw [encode, mnemonic_withArg, arg_withArg m _ hadmits, ← hop, cmdOp_append_cmdArg]

/-! ### The opcode map -/

/-- What the rows of the map have in common (R64): the opcode and the format of their mnemonic, and a mask
that holds the whole opcode. -/
theorem opcodeMap_rows : ∀ r ∈ opcodeMap,
    cmdOp r.mask = 0xFF ∧ cmdOp r.bits = r.mnemonic.op ∧ r.format = r.mnemonic.format := by
  decide

/-- Any two rows disagree in a bit that both masks hold. -/
theorem opcodeMap_disjoint : ∀ r ∈ opcodeMap, ∀ r' ∈ opcodeMap,
    r.bits &&& r'.mask = r'.bits &&& r.mask → r = r' := by
  decide

theorem row_eq_of_covers (w : CommandWord) (r r' : Row) (hr : r ∈ opcodeMap) (hr' : r' ∈ opcodeMap)
    (h : r.covers w = true) (h' : r'.covers w = true) : r = r' := by
  refine opcodeMap_disjoint r hr r' hr' ?_
  rw [← eq_of_beq h, ← eq_of_beq h', BitVec.and_assoc, BitVec.and_assoc, BitVec.and_comm r.mask]

/-- Two words are one when their opcodes are and their arguments are. -/
theorem word_eq_iff (w v : CommandWord) : w = v ↔ cmdOp w = cmdOp v ∧ cmdArg w = cmdArg v := by
  constructor
  · rintro rfl
    exact ⟨rfl, rfl⟩
  · rintro ⟨hop, harg⟩
    rw [← cmdOp_append_cmdArg w, hop, harg, cmdOp_append_cmdArg]

/-- A row covers a word when the word has its opcode and the argument bits that its mask holds. -/
theorem covers_iff (r : Row) (hr : r ∈ opcodeMap) (w : CommandWord) :
    r.covers w = true ↔
      cmdOp w = r.mnemonic.op ∧ cmdArg w &&& cmdArg r.mask = cmdArg r.bits := by
  obtain ⟨hmask, hbits, -⟩ := opcodeMap_rows r hr
  have hop : cmdOp (w &&& r.mask) = cmdOp w := by
    rw [cmdOp, BitVec.extractLsb'_and]
    exact (congrArg (cmdOp w &&& ·) hmask).trans BitVec.and_allOnes
  have harg : cmdArg (w &&& r.mask) = cmdArg w &&& cmdArg r.mask := BitVec.extractLsb'_and
  rw [Row.covers, beq_iff_eq, word_eq_iff, hop, harg, hbits]

/-- A mask of ones above `n` zeros compares the bits above the low `n`. -/
theorem and_high_mask_eq_iff (n k : Nat) (arg : BitVec (k + n)) (c : BitVec k) :
    arg &&& (BitVec.allOnes k ++ 0#n) = c ++ 0#n ↔ arg.extractLsb' n k = c := by
  calc arg &&& (BitVec.allOnes k ++ 0#n) = c ++ 0#n
      ↔ (arg.extractLsb' n k ++ arg.extractLsb' 0 n) &&& (BitVec.allOnes k ++ 0#n) = c ++ 0#n := by
        rw [high_append_low]
    _ ↔ arg.extractLsb' n k = c := by
        rw [BitVec.and_append, BitVec.and_allOnes, BitVec.and_zero, BitVec.append_left_inj]

/-- The signed byte's requirement (R62): bits 31:8 repeat bit 7. -/
theorem format_S_admits_iff_bits (arg : Word32) :
    Format.S.admits arg = true ↔ ∀ j < 25, arg.getLsbD (7 + j) = arg.getLsbD 7 := by
  have hbit (i : Nat) (hi : i < 32) : ((arg.extractLsb' 0 8).signExtend 32).getLsbD i =
      if i < 8 then arg.getLsbD i else arg.getLsbD 7 := by
    rw [BitVec.getLsbD_signExtend, BitVec.msb_eq_getLsbD_last]
    simp only [hi, decide_true, Bool.true_and, BitVec.getLsbD_extractLsb', Nat.zero_add]
    split
    · next hlt => rw [decide_eq_true hlt, Bool.true_and]
    · rfl
  rw [Format.admits, beq_iff_eq]
  constructor
  · intro h j hj
    rw [h, hbit _ (by omega), hbit 7 (by omega)]
    split
    · next hlt => rw [show j = 0 by omega]; rfl
    · rfl
  · intro h
    refine BitVec.eq_of_getLsbD_eq fun i hi => ?_
    rw [hbit i hi]
    split
    · rfl
    · rw [← h (i - 7) (by omega), Nat.add_sub_of_le (by omega)]

/-- Bits of one value are a slice of zeros or of ones. -/
theorem extractLsb'_eq_fill_iff (arg : Word32) (b : Bool) :
    arg.extractLsb' 7 25 = BitVec.fill 25 b ↔ ∀ j < 25, arg.getLsbD (7 + j) = b := by
  constructor
  · intro h j hj
    simpa [hj] using congrArg (BitVec.getLsbD · j) h
  · intro h
    refine BitVec.eq_of_getLsbD_eq fun j hj => ?_
    simp [hj, h]

/-- The signed byte's requirement, by its two rows (R64). -/
theorem format_S_admits_iff (arg : Word32) :
    Format.S.admits arg = true ↔
      arg.extractLsb' 7 25 = 0#25 ∨ arg.extractLsb' 7 25 = BitVec.allOnes 25 := by
  calc Format.S.admits arg = true
      ↔ ∀ j < 25, arg.getLsbD (7 + j) = arg.getLsbD 7 := format_S_admits_iff_bits arg
    _ ↔ ∃ b, ∀ j < 25, arg.getLsbD (7 + j) = b :=
        ⟨fun h => ⟨_, h⟩, fun ⟨_, h⟩ j hj => (h j hj).trans (h 0 (by decide)).symm⟩
    _ ↔ ∃ b, arg.extractLsb' 7 25 = BitVec.fill 25 b :=
        exists_congr fun b => (extractLsb'_eq_fill_iff arg b).symm
    _ ↔ arg.extractLsb' 7 25 = 0#25 ∨ arg.extractLsb' 7 25 = BitVec.allOnes 25 := Bool.exists_bool

/-- A format admits an argument exactly when a row of the mnemonic compares equal (R62, R64). -/
theorem format_admits_iff_row (m : Mnemonic) (arg : Word32) :
    m.format.admits arg = true ↔
      ∃ r ∈ opcodeMap, r.mnemonic = m ∧ arg &&& cmdArg r.mask = cmdArg r.bits := by
  have high (n k : Nat) (arg : BitVec (k + n)) (c : BitVec k) :=
    (and_high_mask_eq_iff n k arg c).symm
  simp only [opcodeMap, List.mem_cons, List.not_mem_nil, or_false, exists_eq_or_imp, exists_eq_left]
  cases m with (simp only [reduceCtorEq, false_and, true_and, false_or, or_false])
  | crcInit | putCrc | clr =>
    exact beq_iff_eq.trans (Iff.of_eq (congrArg (· = 0#32) BitVec.and_allOnes.symm))
  | crcUpd | putU8 => exact beq_iff_eq.trans (high 8 24 arg 0)
  | putI8 =>
    exact (format_S_admits_iff arg).trans
      (or_congr (high 7 25 arg 0) (high 7 25 arg (BitVec.allOnes 25)))
  | putF32 => exact iff_of_true rfl BitVec.and_zero
  | getU8 | getI8 | getF32 | chk => exact beq_iff_eq.trans (high 16 16 arg 0)
  | rdSr => exact beq_iff_eq.trans (high 2 30 arg 0)

/-- A word decodes to a command of a mnemonic exactly when a row of that mnemonic covers it. -/
theorem decodes_iff_row_covers (w : CommandWord) (m : Mnemonic) :
    (∃ i, decode w = .ok i ∧ i.mnemonic = m) ↔
      ∃ r ∈ opcodeMap, r.covers w = true ∧ r.mnemonic = m := by
  constructor
  · rintro ⟨i, hdecode, rfl⟩
    obtain ⟨m, hop, hadmits, rfl⟩ := (decode_eq_ok_iff w i).mp hdecode
    obtain ⟨r, hr, rfl, harg⟩ := (format_admits_iff_row m _).mp hadmits
    exact ⟨r, hr, (covers_iff r hr w).mpr ⟨hop, harg⟩, (mnemonic_withArg _ _).symm⟩
  · rintro ⟨r, hr, hcovers, rfl⟩
    obtain ⟨hop, harg⟩ := (covers_iff r hr w).mp hcovers
    have hadmits := (format_admits_iff_row r.mnemonic _).mpr ⟨r, hr, rfl, harg⟩
    exact ⟨_, (decode_eq_ok_iff w _).mpr ⟨_, hop, hadmits, rfl⟩, mnemonic_withArg _ _⟩

/-- Settles O33: decoding the opcode and the argument of a command reads its mnemonic and its operand
back. -/
theorem decodeOfEncodeIsTheCommand : Obligations.DecodeOfEncodeIsTheCommand := by
  unfold Obligations.DecodeOfEncodeIsTheCommand
  exact fun i => ⟨wellFormed_instr i, decode_encode i⟩

/-- Settles O34: an argument its format admits holds its operand and nothing else. -/
theorem encodeOfDecodeIsTheWord : Obligations.EncodeOfDecodeIsTheWord := by
  unfold Obligations.EncodeOfDecodeIsTheWord
  exact encode_of_decode

/-- Settles O32: the requirement of each format is the comparison that the rows of its mnemonics make, and
any two rows differ in a bit that both compare. -/
theorem decodingAgreesWithTheOpcodeMap : Obligations.DecodingAgreesWithTheOpcodeMap := by
  unfold Obligations.DecodingAgreesWithTheOpcodeMap
  refine ⟨fun w => ⟨?decodes, ?covered⟩, ?row, fun w r hr r' hr' => row_eq_of_covers w r r' hr hr'⟩
  case decodes =>
    rintro ⟨i, hdecode⟩
    obtain ⟨r, hr, hcovers, -⟩ := (decodes_iff_row_covers w _).mp ⟨i, hdecode, rfl⟩
    exact ⟨r, hr, hcovers⟩
  case covered =>
    rintro ⟨r, hr, hcovers⟩
    obtain ⟨i, hdecode, -⟩ := (decodes_iff_row_covers w _).mpr ⟨r, hr, hcovers, rfl⟩
    exact ⟨i, hdecode⟩
  case row =>
    intro w i hdecode
    obtain ⟨r, hr, hcovers, hm⟩ := (decodes_iff_row_covers w _).mp ⟨i, hdecode, rfl⟩
    obtain ⟨-, -, hformat⟩ := opcodeMap_rows r hr
    exact ⟨r, hr, hcovers, hm, hm ▸ hformat⟩

/-- Settles O35: six words are encodings written out; each of the others breaks the opcode or the
requirement of the format. -/
theorem writtenOutWordsDecodeAsTheSpecSays : Obligations.WrittenOutWordsDecodeAsTheSpecSays := by
  unfold Obligations.WrittenOutWordsDecodeAsTheSpecSays
  refine ⟨decode_encode (.crcUpd 0xFF), by decide, decode_encode (.putF32 0xC0200000),
    decode_encode (.getF32 18), decode_encode (.chk 4), decode_encode (.rdSr .cap), ?_⟩
  simp only [List.forall_mem_cons, List.not_mem_nil, false_implies, implies_true, and_true]
  exact ⟨⟨.opcode 0x00, by decide⟩, ⟨.opcode 0xFF, by decide⟩,
    ⟨_, decode_op_append .crcInit 0x00000001⟩, ⟨_, decode_op_append .putU8 0x00000100⟩,
    ⟨_, decode_op_append .putI8 0x00000080⟩, ⟨_, decode_op_append .putI8 0xFFFFFF7F⟩,
    ⟨_, decode_op_append .getF32 0x00010000⟩, ⟨_, decode_op_append .rdSr 0x00000004⟩⟩

end Sys2Proof.Machine
end

section
/-! PROOFS. The laws of the checksum functions (40_crc.md R97): linearity, what a fold over bytes tells
apart, the residue test, and with them CHK on a changed frame (93_implementation_defined.md U9). -/

namespace Sys2Proof.Machine

/-- The polynomial is added for each top bit, and so cancels when both are set. -/
theorem crcRound_xor (a b : Word16) : crcRound (a ^^^ b) = crcRound a ^^^ crcRound b := by
  have hshift : (a ^^^ b).extractLsb' 0 15 ++ 0#1 =
      (a.extractLsb' 0 15 ++ 0#1) ^^^ (b.extractLsb' 0 15 ++ 0#1) := by
    rw [BitVec.extractLsb'_xor, BitVec.xor_append, BitVec.xor_zero]
  have hpoly : ∀ x y : Bool, (if (x ^^ y) then 0x1021#16 else 0x0000#16) =
      (if x then 0x1021#16 else 0x0000#16) ^^^ (if y then 0x1021#16 else 0x0000#16) := by
    decide
  rw [crcRound_eq, crcRound_eq a, crcRound_eq b, hshift, BitVec.getLsbD_xor, hpoly]
  ac_rfl

theorem crcRounds_xor (k : Nat) (a b : Word16) :
    crcRounds k (a ^^^ b) = crcRounds k a ^^^ crcRounds k b := by
  induction k generalizing a b with
  | zero => rfl
  | succ k ih => rw [crcRounds, crcRound_xor, ih, crcRounds, crcRounds]

theorem crcByte_xor (r1 r2 : Word16) (b1 b2 : Byte) :
    crcByte (r1 ^^^ r2) (b1 ^^^ b2) = crcByte r1 b1 ^^^ crcByte r2 b2 := by
  have hbytes : (b1 ^^^ b2) ++ 0x00#8 = (b1 ++ 0x00#8) ^^^ (b2 ++ 0x00#8) := by
    rw [BitVec.xor_append, BitVec.xor_zero]
  have hregisters : r1 ^^^ r2 ^^^ ((b1 ++ 0x00#8) ^^^ (b2 ++ 0x00#8)) =
      (r1 ^^^ (b1 ++ 0x00#8)) ^^^ (r2 ^^^ (b2 ++ 0x00#8)) := by
    ac_rfl
  rw [crcByte, hbytes, hregisters, crcRounds_xor, crcByte, crcByte]

/-- From one register, different bytes lead to different registers. -/
theorem crcByte_injective_byte (r : Word16) : Function.Injective (crcByte r) :=
  fun _ _ h =>
    (BitVec.append_left_inj 0x00#8).mp ((BitVec.xor_right_inj r).mp (crcRounds_injective 8 h))

/-- Over one sequence of bytes, different registers lead to different registers. -/
theorem foldl_crcByte_injective (m : List Byte) :
    Function.Injective fun r : Word16 => m.foldl crcByte r := by
  induction m with
  | nil => exact Function.injective_id
  | cons b m ih => exact ih.comp (crcByte_injective b)

/-- A change confined to one byte changes the CRC (U9). -/
theorem crc16_ne_of_byte_ne (pre post : List Byte) (b c : Byte) (h : b ≠ c) :
    crc16 (pre ++ [b] ++ post) ≠ crc16 (pre ++ [c] ++ post) := by
  rw [crc16_append, crc16_append, crc16_append, crc16_append]
  exact fun heq => h (crcByte_injective_byte _ (foldl_crcByte_injective post heq))

/-- The residue test (R97 (d)): a frame has CRC 0 exactly when its trailer is the CRC of what stands
before it. -/
theorem crc16_append_pack16_eq_zero_iff (m : List Byte) (c : Word16) :
    crc16 (m ++ pack16 c) = 0#16 ↔ crc16 m = c := by
  rw [crc16_append, ← foldl_crcByte_pack16 c]
  exact (foldl_crcByte_injective (pack16 c)).eq_iff

/-- Two bytes or more are a message and a trailer. -/
theorem exists_append_pack16 (m : List Byte) (h : 2 ≤ m.length) : ∃ n c, m = n ++ pack16 c := by
  obtain ⟨b0, b1, hlast⟩ : ∃ b0 b1, m.drop (m.length - 2) = [b0, b1] :=
    List.length_eq_two.mp (by rw [List.length_drop]; omega)
  exact ⟨m.take (m.length - 2), b0 ++ b1, by rw [pack16_append, ← hlast, List.take_append_drop]⟩

theorem xor_bit_ne (b : Byte) (j : Nat) (h : j < 8) : b ^^^ (1#8 <<< j) ≠ b := by
  have hbit : ∀ j : Fin 8, 1#8 <<< j.val ≠ 0#8 := by decide
  exact fun heq => hbit ⟨j, h⟩ ((BitVec.xor_right_inj b).mp (heq.trans BitVec.xor_zero.symm))

/-- Settles O4: a fold over an append. -/
theorem crc16OfConcatenationContinuesTheRegister :
    Obligations.Crc16OfConcatenationContinuesTheRegister := by
  unfold Obligations.Crc16OfConcatenationContinuesTheRegister
  exact crc16_append

/-- Settles O5: a round shifts and adds the polynomial by the top bit, both of which are linear, and a
byte is eight rounds. -/
theorem crcRoundAndCrcByteAreLinear : Obligations.CrcRoundAndCrcByteAreLinear := by
  unfold Obligations.CrcRoundAndCrcByteAreLinear
  exact ⟨crcRound_xor, crcByte_xor, by decide, by decide⟩

/-- Settles O6: a byte with one bit flipped is another byte. -/
theorem singleBitFlipChangesCrc16 : Obligations.SingleBitFlipChangesCrc16 := by
  unfold Obligations.SingleBitFlipChangesCrc16
  exact fun pre post b j hj => crc16_ne_of_byte_ne pre post _ b (xor_bit_ne b j hj)

/-- Settles O7: every byte folds injectively, in the byte and in the register. -/
theorem singleByteChangeChangesCrc16 : Obligations.SingleByteChangeChangesCrc16 := by
  unfold Obligations.SingleByteChangeChangesCrc16
  exact crc16_ne_of_byte_ne

/-- Settles O8: folding a register's own two bytes into it leaves 0. -/
theorem crc16OfFrameWithItsTrailerIsZero : Obligations.Crc16OfFrameWithItsTrailerIsZero := by
  unfold Obligations.Crc16OfFrameWithItsTrailerIsZero
  exact crc16_append_pack16

/-- Settles O21: CHK compares the trailer with the CRC of what stands before it, and so does the residue
test. -/
theorem chkAgreesWithTheResidueTest : Obligations.ChkAgreesWithTheResidueTest := by
  unfold Obligations.ChkAgreesWithTheResidueTest
  intro k s hk hlen
  obtain ⟨m, c, hbuf⟩ := exists_append_pack16 s.buf hlen
  refine ⟨_, _, exec_chk_of_trailer k s m c hk hbuf, rfl, ?_⟩
  rw [hbuf, crc16_append_pack16_eq_zero_iff]
  by_cases hc : crc16 m = c <;> simp [hc]

/-- Settles O22: the trailer is the CRC of another message than the one CHK sees. -/
theorem chkCatchesAnyOneByteChangeBeforeTheTrailer :
    Obligations.ChkCatchesAnyOneByteChangeBeforeTheTrailer := by
  unfold Obligations.ChkCatchesAnyOneByteChangeBeforeTheTrailer
  intro k s pre post b c hbc hbuf hk
  have hexec := exec_chk_of_trailer k s _ _ hk hbuf
  rw [if_neg (crc16_ne_of_byte_ne pre post c b hbc.symm)] at hexec
  exact ⟨_, hexec, rfl, rfl⟩

end Sys2Proof.Machine
end

section
/-! PROOFS. What a command can do to the state (10_state.md R33), said once, and what follows from it: the
frame of the PUTs, the frame of every command, and the invariant of every step. -/

namespace Sys2Proof.Machine

/-- What a command can leave of a state: a PUT that does not fit sets OVF; one that fits appends its bytes,
and only PUT.CRC writes CRC with them; CLR empties BUF; any other command writes CRC at most. Each gives
one response, a fault code only to the overflow and no value beside an error. -/
inductive Effect (i : Instr) (s : State) : State → Prop where
  | overflowed (n : Nat) (hi : appends i = some n) (hover : Config.bufSize < s.buf.length + n) :
      Effect i s (({ s with ovf := true } : State).answer ⟨0, .noError, .ovf⟩)
  | appended (crc : Word16) (bs : List Byte) (d : Word32) (hi : appends i = some bs.length)
      (hfit : s.buf.length + bs.length ≤ Config.bufSize) (hcrc : i ≠ .putCrc → crc = s.crc) :
      Effect i s
        (({ s with crc := crc, buf := s.buf ++ bs } : State).answer ⟨d, .noError, .none⟩)
  | cleared (hi : i = .clr) :
      Effect i s (({ s with buf := [] } : State).answer ⟨0, .noError, .none⟩)
  | kept (crc : Word16) (d : Word32) (e : ErrorCode) (hi : appends i = none) (hclr : i ≠ .clr)
      (herr : e ≠ .noError → d = 0) :
      Effect i s (({ s with crc := crc } : State).answer ⟨d, e, .none⟩)

/-- A PUT of a field, by whether it fits. -/
theorem exists_effect_put (i : Instr) (bs : List Byte) (s : State)
    (hi : appends i = some bs.length) (hexec : exec i s = put Config.bufSize bs s) :
    ∃ t, exec i s = .next t ∧ Effect i s t := by
  obtain hover | hfit := Nat.lt_or_ge Config.bufSize (s.buf.length + bs.length)
  · exact ⟨_, exec_of_appends_overflows i _ s hi hover, .overflowed _ hi hover⟩
  · exact ⟨_, hexec.trans (put_fits _ bs s hfit), .appended s.crc bs 0 hi hfit fun _ => rfl⟩

theorem exists_effect_putCrc (s : State) : ∃ t, exec .putCrc s = .next t ∧ Effect .putCrc s t := by
  obtain hover | hfit := Nat.lt_or_ge Config.bufSize (s.buf.length + 2)
  · exact ⟨_, exec_of_appends_overflows .putCrc 2 s rfl hover, .overflowed 2 rfl hover⟩
  · exact ⟨_, putCrc_fits _ s hfit, .appended _ _ _ rfl hfit fun h => absurd rfl h⟩

/-- A GET, by whether its field is present. -/
theorem exists_effect_respondField (i : Instr) (field : Option Word32) (s : State)
    (hi : appends i = none) (hclr : i ≠ .clr) (hexec : exec i s = respondField field s) :
    ∃ t, exec i s = .next t ∧ Effect i s t := by
  rw [hexec]
  cases field with
  | some v => exact ⟨_, rfl, .kept s.crc v .noError hi hclr fun h => absurd rfl h⟩
  | none => exact ⟨_, rfl, .kept s.crc 0 .wrongDataSize hi hclr fun _ => rfl⟩

/-- Every command has one of these effects, in every state. -/
theorem exists_effect (i : Instr) (s : State) : ∃ t, exec i s = .next t ∧ Effect i s t := by
  cases i with
  | crcInit | crcUpd b | rdSr r => exact ⟨_, rfl, .kept _ _ .noError rfl nofun fun h => absurd rfl h⟩
  | clr => exact ⟨_, rfl, .cleared rfl⟩
  | putU8 b | putI8 b => exact exists_effect_put _ [b] s rfl rfl
  | putF32 p => exact exists_effect_put _ (packF32 p) s rfl rfl
  | putCrc => exact exists_effect_putCrc s
  | getU8 o | getI8 o | getF32 o => exact exists_effect_respondField _ _ s rfl nofun rfl
  | chk k =>
    by_cases hshort : s.buf.length < k.toNat ∨ s.buf.length < 2
    · exact ⟨_, execChk_short k s hshort, .kept s.crc 0 _ rfl nofun fun _ => rfl⟩
    · exact ⟨_, execChk_long k s hshort, .kept _ 0 _ rfl nofun fun _ => rfl⟩

theorem effect_of_exec (i : Instr) (s t : State) (h : exec i s = .next t) : Effect i s t := by
  obtain ⟨u, hexec, heffect⟩ := exists_effect i s
  cases hexec.symm.trans h
  exact heffect

/-- A byte outside those an append writes is as it was. -/
theorem Memory.byte_append_outside (m : Memory) (bs : List Byte) (a : Nat)
    (ha : a < m.length ∨ m.length + bs.length ≤ a) :
    Memory.byte (m ++ bs) a = Memory.byte m a := by
  rw [← Memory.write_length]
  obtain hbelow | habove := ha
  · exact Memory.byte_write_below m m.length a bs le_rfl hbelow
  · exact Memory.byte_write_above m m.length a bs le_rfl habove

/-- Settles O16: a PUT either overflows or appends at the end of BUF. -/
theorem appendIsAllOrNothingAndTouchesNothingElse :
    Obligations.AppendIsAllOrNothingAndTouchesNothingElse := by
  unfold Obligations.AppendIsAllOrNothingAndTouchesNothingElse
  intro i n s hn
  obtain ⟨t, hexec, heffect⟩ := exists_effect i s
  refine ⟨t, ?_⟩
  cases heffect with
  | overflowed n' hi hover =>
    obtain rfl : n = n' := Option.some.inj (hn.symm.trans hi)
    exact ⟨_, hexec, rfl, rfl, rfl, fun _ _ => rfl, fun hfit => absurd hover (Nat.not_lt.mpr hfit),
      fun _ => ⟨rfl, rfl, rfl, rfl⟩⟩
  | appended crc bs d hi hfit hcrc =>
    obtain rfl : n = bs.length := Option.some.inj (hn.symm.trans hi)
    exact ⟨_, hexec, rfl, rfl, rfl, fun a ha => Memory.byte_append_outside s.buf bs a ha,
      fun _ => ⟨List.length_append, rfl, rfl, rfl, hcrc⟩,
      fun hover => absurd hover (Nat.not_lt.mpr hfit)⟩
  | cleared hi => cases hi; cases hn
  | kept crc d e hi => cases hn.symm.trans hi

/-- Settles O30: each effect writes what its commands write and nothing else; that of CRC is the column
of `writesCrc`. -/
theorem everyCommandLeavesUnchangedWhatItDoesNotWrite :
    Obligations.EveryCommandLeavesUnchangedWhatItDoesNotWrite := by
  unfold Obligations.EveryCommandLeavesUnchangedWhatItDoesNotWrite
  intro i s t hexec
  have hcrc := crc_of_exec i s t hexec
  cases effect_of_exec i s t hexec with
  | overflowed n hi | appended crc bs d hi =>
    exact ⟨rfl, rfl, hcrc, fun h => (nomatch hi.symm.trans h), fun h => (nomatch hi.symm.trans h),
      fun h => by rw [h] at hi; cases hi⟩
  | cleared hi =>
    exact ⟨rfl, rfl, hcrc, fun _ => rfl, fun _ h => absurd hi h, fun _ => ⟨rfl, rfl, fun _ => rfl⟩⟩
  | kept crc d e hi hclr =>
    exact ⟨rfl, rfl, hcrc, fun _ => rfl, fun _ _ => ⟨fun _ => rfl, rfl⟩, fun h => absurd h hclr⟩

/-! ### The invariant -/

/-- An answer keeps the invariant when its BUF is in its capacity and its response is legal. -/
theorem State.Inv.answer {s t : State} {r : Response} (hs : s.Inv)
    (hresponses : t.responses = s.responses) (hbuf : Memory.wf t.buf = true)
    (hr : r.legal = true) : (t.answer r).Inv where
  len_le := hbuf
  responses_legal := by
    intro r' hr'
    rw [State.answer_responses, hresponses, List.mem_append, List.mem_singleton] at hr'
    obtain hold | rfl := hr'
    · exact hs.responses_legal r' hold
    · exact hr

theorem Response.legal_of_no_fault (d : Word32) (e : ErrorCode) (h : e ≠ .noError → d = 0) :
    (⟨d, e, .none⟩ : Response).legal = true :=
  decide_eq_true ⟨fun hf => absurd rfl hf, fun he => ⟨rfl, h he⟩⟩

theorem Effect.inv {i : Instr} {s t : State} (h : Effect i s t) (hs : s.Inv) : t.Inv := by
  cases h with
  | overflowed => exact hs.answer rfl hs.len_le (by decide)
  | appended crc bs d hi hfit =>
    exact hs.answer rfl (decide_eq_true (List.length_append.trans_le hfit))
      (Response.legal_of_no_fault d _ fun h => absurd rfl h)
  | cleared => exact hs.answer rfl Memory.wf_nil (by decide)
  | kept crc d e hi hclr herr => exact hs.answer rfl hs.len_le (Response.legal_of_no_fault d e herr)

theorem runWord_keeps_inv (w : CommandWord) (s t : State) (hs : s.Inv)
    (h : runWord w s = .next t) : t.Inv := by
  cases hw : decode w with
  | ok i => exact (effect_of_exec i s t ((runWord_legal w i s hw).symm.trans h)).inv hs
  | error e =>
    cases (runWord_illegal_eq w e s hw).symm.trans h
    exact hs.answer rfl hs.len_le (by decide)

theorem resetBlock_inv (s : State) (hs : s.Inv) : (resetBlock s).Inv :=
  ⟨Memory.wf_nil, hs.responses_legal⟩

theorem handle_keeps_inv (e : HostEvent) (s t : State) (hs : s.Inv)
    (h : handle e s = .next t) : t.Inv := by
  cases e with
  | command w => exact runWord_keeps_inv w s t hs h
  | reset | resetDuring w =>
    cases h
    exact resetBlock_inv s hs

theorem step_keeps_inv (s t : State) (hs : s.Inv) (h : step s = .next t) : t.Inv := by
  cases hp : s.pending with
  | nil =>
    cases (step_idle s hp).symm.trans h
    exact hs
  | cons e rest =>
    exact handle_keeps_inv e { s with pending := rest } t ⟨hs.len_le, hs.responses_legal⟩
      ((step_event s e rest hp).symm.trans h)

theorem Reaches.inv {s t : State} (h : Reaches s t) (hs : s.Inv) : t.Inv := by
  induction h with
  | refl => exact hs
  | tail _ hstep ih => exact step_keeps_inv _ _ ih hstep

/-- The capacity fits in 16 bits, so under the invariant LEN is the length of BUF (R24). -/
theorem State.Inv.len_eq {s : State} (hs : s.Inv) :
    s.len.toNat = s.buf.length ∧ s.buf.length ≤ Config.bufSize := by
  have hle : s.buf.length ≤ Config.bufSize := of_decide_eq_true hs.len_le
  obtain ⟨-, hrange⟩ := bufSize_range
  exact ⟨(BitVec.toNat_ofNat _ _).trans (Nat.mod_eq_of_lt (by omega)), hle⟩

/-- Settles O46: every command keeps the invariant by its effect, an illegal word writes only ILL, and a
reset empties BUF. -/
theorem everyStepKeepsTheInvariant : Obligations.EveryStepKeepsTheInvariant := by
  unfold Obligations.EveryStepKeepsTheInvariant
  exact step_keeps_inv

/-- Settles O45: BUF is empty, and no response has been given. -/
theorem resetStateMeetsTheInvariant : Obligations.ResetStateMeetsTheInvariant := by
  unfold Obligations.ResetStateMeetsTheInvariant
  exact ⟨Memory.wf_reset, nofun⟩

/-- Settles O47: the invariant holds of every state reached, and the capacity does not overflow LEN. -/
theorem lenCountsTheBytesThatHoldAValue : Obligations.LenCountsTheBytesThatHoldAValue := by
  unfold Obligations.LenCountsTheBytesThatHoldAValue
  intro s t hs hreach
  obtain ⟨hlen, hle⟩ := (hreach.inv hs).len_eq
  exact ⟨hlen, hlen.trans_le hle⟩

end Sys2Proof.Machine
end

section
/-! PROOFS. Which commands read CRC (10_state.md R22): two runs of any other command, from states that
differ in CRC alone, differ in CRC at most. -/

namespace Sys2Proof.Machine

/-- Two outcomes, of a run from `s` and of one from `s` with another CRC, that tell the two values apart in
CRC alone, where each is then as it was. -/
def CrcBlind (s : State) (c : Word16) (o o' : Host.Outcome State Fault Refusal) : Prop :=
  ∃ t u : State, o = .next t ∧ o' = .next u ∧ u = { t with crc := u.crc } ∧
    (u.crc = t.crc ∨ (t.crc = s.crc ∧ u.crc = c))

/-- Responding with CRC untouched. -/
theorem crcBlind_respond_untouched (s t : State) (c : Word16) (d : Word32) (e : ErrorCode)
    (f : FaultCode) (ht : t.crc = s.crc) :
    CrcBlind s c (respond d e f t) (respond d e f { t with crc := c }) :=
  ⟨_, _, rfl, rfl, rfl, .inr ⟨ht, rfl⟩⟩

/-- Responding with CRC written the same in both runs. -/
theorem crcBlind_respond_written (s t : State) (c : Word16) (d : Word32) (e : ErrorCode)
    (f : FaultCode) : CrcBlind s c (respond d e f t) (respond d e f t) :=
  ⟨_, _, rfl, rfl, rfl, .inl rfl⟩

theorem crcBlind_append (cap : Nat) (bs : List Byte) (s : State) (c : Word16)
    (done : State → Host.Outcome State Fault Refusal)
    (hdone : ∀ buf, CrcBlind s c (done { s with buf := buf }) (done { s with crc := c, buf := buf })) :
    CrcBlind s c (append cap bs s done) (append cap bs { s with crc := c } done) := by
  obtain hover | hfit := Nat.lt_or_ge cap (s.buf.length + bs.length)
  · rw [append_overflows cap bs s done hover, append_overflows cap bs { s with crc := c } done hover]
    exact crcBlind_respond_untouched s s.setOvf c 0 .noError .ovf rfl
  · rw [append_fits cap bs s done hfit, append_fits cap bs { s with crc := c } done hfit]
    exact hdone _

theorem crcBlind_put (cap : Nat) (bs : List Byte) (s : State) (c : Word16) :
    CrcBlind s c (put cap bs s) (put cap bs { s with crc := c }) :=
  crcBlind_append cap bs s c _ fun _ => crcBlind_respond_untouched s _ c _ _ _ rfl

theorem crcBlind_putCrc (cap : Nat) (s : State) (c : Word16) :
    CrcBlind s c (putCrc cap s) (putCrc cap { s with crc := c }) := by
  unfold putCrc
  refine crcBlind_append cap _ s c _ fun buf => ?_
  exact crcBlind_respond_written s { s with crc := crc16 s.buf, buf := buf } c _ _ _

theorem crcBlind_respondField (field : Option Word32) (s : State) (c : Word16) :
    CrcBlind s c (respondField field s) (respondField field { s with crc := c }) := by
  cases field <;> exact crcBlind_respond_untouched s s c _ _ _ rfl

theorem crcBlind_execChk (k : Word16) (s : State) (c : Word16) :
    CrcBlind s c (execChk k s) (execChk k { s with crc := c }) := by
  by_cases hshort : s.buf.length < k.toNat ∨ s.buf.length < 2
  · rw [execChk_short k s hshort, execChk_short k { s with crc := c } hshort]
    exact crcBlind_respond_untouched s s c _ _ _ rfl
  · rw [execChk_long k s hshort, execChk_long k { s with crc := c } hshort]
    exact crcBlind_respond_written s _ c _ _ _

/-- Every command but CRC.UPD and RD.SR 0 is blind to CRC. -/
theorem crcBlind_exec (i : Instr) (s : State) (c : Word16) (hupd : ∀ b, i ≠ .crcUpd b)
    (hrd : i ≠ .rdSr .crc) : CrcBlind s c (exec i s) (exec i { s with crc := c }) := by
  cases i with
  | crcUpd b => exact absurd rfl (hupd b)
  | crcInit => exact crcBlind_respond_written s { s with crc := crcInitial } c _ _ _
  | putU8 b | putI8 b | putF32 p => exact crcBlind_put _ _ s c
  | putCrc => exact crcBlind_putCrc _ s c
  | getU8 o | getI8 o | getF32 o => exact crcBlind_respondField _ s c
  | chk k => exact crcBlind_execChk k s c
  | clr => exact crcBlind_respond_untouched s { s with buf := [] } c _ _ _ rfl
  | rdSr r =>
    cases r with
    | crc => exact absurd rfl hrd
    | len | status | cap => exact crcBlind_respond_untouched s s c _ _ _ rfl

/-- Settles O29: who writes CRC is `crc_of_exec`; the two runs are compared operation by operation. -/
theorem crcIsWrittenAndReadOnlyByItsCommands : Obligations.CrcIsWrittenAndReadOnlyByItsCommands := by
  unfold Obligations.CrcIsWrittenAndReadOnlyByItsCommands
  exact ⟨crc_of_exec, crcBlind_exec⟩

end Sys2Proof.Machine
end

section
/-! PROOFS. The machine (30_encoding.md R61; 70_reset_and_hazards.md R210 to R214, R220): one step, a reset,
and what a run leaves of the flags. -/

namespace Sys2Proof.Machine

/-- The block takes whatever the host does next, and waits when that is nothing (R199). -/
theorem exists_step (s : State) : ∃ t, step s = .next t := by
  cases hp : s.pending with
  | nil => exact ⟨s, step_idle s hp⟩
  | cons e rest =>
    obtain ⟨t, hhandle, -⟩ := handle_keeps_pending e { s with pending := rest }
    exact ⟨t, (step_event s e rest hp).trans hhandle⟩

theorem step_reset_eq (s : State) (rest : List HostEvent) (hp : s.pending = .reset :: rest) :
    step s = .next { State.reset with pending := rest, responses := s.responses } :=
  step_event s _ rest hp

/-- With both flags clear SR2 is 0 (R30). -/
theorem statusReg_status_of_clear (s : State) (hill : s.ill = false) (hovf : s.ovf = false) :
    statusReg s .status = 0#32 := by
  rw [statusReg, State.flags, hill, hovf]
  rfl

/-- A rising edge in a cycle of `rst` (R210, R211). -/
theorem edge_of_rst (e : Edge) (p : Port) (h : e.pins.rst = true) :
    Port.edge e p = ⟨resetBlock p.block, .idle⟩ := by
  simp only [Port.edge, h, if_true]

/-- Settles O39: the step takes the word, and the word is run. -/
theorem stepRunsTheDecodedCommand : Obligations.StepRunsTheDecodedCommand := by
  unfold Obligations.StepRunsTheDecodedCommand
  exact fun s w rest i hp hw => (step_event s _ rest hp).trans (runWord_legal w i _ hw)

/-- Settles O41: what the host does next is handled, whatever it is. -/
theorem noStateIsStuck : Obligations.NoStateIsStuck := by
  unfold Obligations.NoStateIsStuck
  exact ⟨exists_step, step_idle⟩

/-- Settles O42: a reset leaves the reset state, whose status registers are computed from it. -/
theorem resetLeavesTheResetValues : Obligations.ResetLeavesTheResetValues := by
  unfold Obligations.ResetLeavesTheResetValues
  refine ⟨fun s t rest hp h => ?_, step_reset_eq, fun e p h => ?_⟩
  · cases (step_reset_eq s rest hp).symm.trans h
    exact ⟨rfl, rfl, rfl, rfl, rfl, rfl, rfl, statusReg_status_of_clear _ rfl rfl,
      toNat_statusReg_cap _⟩
  · rw [edge_of_rst e p h]
    exact ⟨rfl, rfl⟩

/-- Settles O43: the event of a reset during a command is handled as a reset, and an edge of `rst` leaves
no command in the block. -/
theorem resetDuringACommandAbandonsIt : Obligations.ResetDuringACommandAbandonsIt := by
  unfold Obligations.ResetDuringACommandAbandonsIt
  exact ⟨fun s w rest hp => step_event s _ rest hp, edge_of_rst⟩

/-- Settles O44: CRC.INIT writes CRC, CLR writes BUF, and the flags were clear before. -/
theorem resetStateFollowsCrcInitAndClr : Obligations.ResetStateFollowsCrcInitAndClr := by
  unfold Obligations.ResetStateFollowsCrcInitAndClr
  intro s hill hovf
  have hinit := issue_of_exec .crcInit s { s with crc := crcInitial } ⟨0, .noError, .none⟩ rfl
  have hclr := issue_of_exec .clr
    (({ s with crc := crcInitial } : State).answer ⟨0, .noError, .none⟩) _ _ rfl
  exact ⟨_, issueAll_cons _ _ _ _ _ _ _ hinit (issueAll_cons _ _ _ _ _ _ _ hclr rfl),
    rfl, rfl, hill, hovf⟩

/-! ### The flags at the end of a run -/

/-- A command sets a flag exactly when its response has a fault (R192 to R194). -/
theorem Effect.flags {i : Instr} {s t : State} (h : Effect i s t) :
    ∃ r, t.responses = s.responses ++ [r] ∧
      (t.ill = false ∧ t.ovf = false ↔ r.fault = .none ∧ s.ill = false ∧ s.ovf = false) := by
  cases h with
  | overflowed => exact ⟨_, rfl, by simp⟩
  | appended | cleared | kept => exact ⟨_, rfl, by simp⟩

theorem runWord_flags (w : CommandWord) (s : State) :
    ∃ t r, runWord w s = .next t ∧ t.responses = s.responses ++ [r] ∧
      (t.ill = false ∧ t.ovf = false ↔ r.fault = .none ∧ s.ill = false ∧ s.ovf = false) := by
  cases hw : decode w with
  | ok i =>
    obtain ⟨t, hexec, heffect⟩ := exists_effect i s
    obtain ⟨r, hresponses, hflags⟩ := heffect.flags
    exact ⟨t, r, (runWord_legal w i s hw).trans hexec, hresponses, hflags⟩
  | error e => exact ⟨_, _, runWord_illegal_eq w e s hw, rfl, by simp⟩

/-- A run leaves both flags clear exactly when they were clear before it and no response has a fault. -/
theorem runEvents_flags (ws : List CommandWord) (s : State) :
    ∃ t rs, runEvents (ws.map .command) s = some t ∧ t.responses = s.responses ++ rs ∧
      rs.length = ws.length ∧
      (t.ill = false ∧ t.ovf = false ↔
        (∀ r ∈ rs, r.fault = .none) ∧ s.ill = false ∧ s.ovf = false) := by
  induction ws generalizing s with
  | nil => exact ⟨s, [], rfl, (List.append_nil _).symm, rfl, by simp⟩
  | cons w ws ih =>
    obtain ⟨t, r, hrun, hr, hword⟩ := runWord_flags w s
    obtain ⟨u, rs, hrest, hrs, hlen, hflags⟩ := ih t
    refine ⟨u, r :: rs, ?_, by simp [hrs, hr], by simp [hlen], ?_⟩
    · simp only [List.map_cons, runEvents, handle, hrun, hrest]
    · rw [hflags, hword, List.forall_mem_cons, ← and_assoc, and_comm (a := r.fault = .none)]

/-- Settles O48: with both flags clear at the start, they are clear at the end exactly when no response
has a fault. -/
theorem runIsGoodExactlyWhenTheFlagsStayClear :
    Obligations.RunIsGoodExactlyWhenTheFlagsStayClear := by
  unfold Obligations.RunIsGoodExactlyWhenTheFlagsStayClear
  intro s ws hill hovf
  obtain ⟨t, rs, hrun, hresponses, hlen, hflags⟩ := runEvents_flags ws s
  exact ⟨t, rs, hrun, hresponses, hlen, fun h => hflags.mpr ⟨h, hill, hovf⟩,
    fun h => (hflags.mp h).1⟩

end Sys2Proof.Machine
end

section
/-! PROOFS. The port (30_encoding.md R74, R75): a rising edge in each phase, and the transactions that a
run of edges carries out. -/

namespace Sys2Proof.Machine

/-- What stands at the port when the execution of a word ends: the state its run leaves, with its response
presented and not delivered. -/
def Port.Executed (w : CommandWord) (s : State) (p : Port) : Prop :=
  ∃ (t : State) (r : Response), runWord w s = .next t ∧ t.responses = s.responses ++ [r] ∧
    p = ⟨{ t with responses := s.responses }, .responding w r⟩

theorem executed_execute (w : CommandWord) (s : State) :
    Port.Executed w s (Port.execute w s) := by
  obtain ⟨crc, buf, ill, ovf, r, hrun⟩ := runWord_eq_written w s
  refine ⟨_, r, hrun, rfl, ?_⟩
  have htransact : transact w s = some (s.written crc buf ill ovf r, r) :=
    transact_of_answer w s _ r hrun
  simp only [Port.execute, htransact]

section
variable {e : Edge} {s : State} (hrst : e.pins.rst = false)
include hrst

theorem edge_idle_wait (hvalid : e.pins.cmdValid = false) :
    Port.edge e ⟨s, .idle⟩ = ⟨s, .idle⟩ := by
  simp [Port.edge, hrst, hvalid]

theorem edge_idle_accept (hvalid : e.pins.cmdValid = true) (hdone : e.done = false) :
    Port.edge e ⟨s, .idle⟩ = ⟨s, .busy e.pins.cmd⟩ := by
  simp [Port.edge, hrst, hvalid, hdone]

theorem edge_idle_accept_done (hvalid : e.pins.cmdValid = true) (hdone : e.done = true) :
    Port.edge e ⟨s, .idle⟩ = Port.execute e.pins.cmd s := by
  simp [Port.edge, hrst, hvalid, hdone]

theorem edge_busy_wait (w : CommandWord) (hdone : e.done = false) :
    Port.edge e ⟨s, .busy w⟩ = ⟨s, .busy w⟩ := by
  simp [Port.edge, hrst, hdone]

theorem edge_busy_done (w : CommandWord) (hdone : e.done = true) :
    Port.edge e ⟨s, .busy w⟩ = Port.execute w s := by
  simp [Port.edge, hrst, hdone]

theorem edge_responding_wait (w : CommandWord) (r : Response) (hready : e.pins.rspReady = false) :
    Port.edge e ⟨s, .responding w r⟩ = ⟨s, .responding w r⟩ := by
  simp [Port.edge, hrst, hready]

theorem edge_responding_deliver (w : CommandWord) (r : Response)
    (hready : e.pins.rspReady = true) :
    Port.edge e ⟨s, .responding w r⟩ = ⟨s.answer r, .idle⟩ := by
  simp [Port.edge, hrst, hready]

theorem completes_idle : Port.completes e ⟨s, .idle⟩ = none := by
  simp [Port.completes, hrst]

theorem completes_busy (w : CommandWord) : Port.completes e ⟨s, .busy w⟩ = none := by
  simp [Port.completes, hrst]

theorem completes_responding_wait (w : CommandWord) (r : Response)
    (hready : e.pins.rspReady = false) : Port.completes e ⟨s, .responding w r⟩ = none := by
  simp [Port.completes, hrst, hready]

theorem completes_responding_deliver (w : CommandWord) (r : Response)
    (hready : e.pins.rspReady = true) :
    Port.completes e ⟨s, .responding w r⟩ = some (.command w) := by
  simp [Port.completes, hrst, hready]

end

/-- A cycle of `rst` completes a reset, between commands or during one (R210, R213). -/
theorem completes_of_rst (e : Edge) (p : Port) (hrst : e.pins.rst = true) :
    ∃ ev, Port.completes e p = some ev ∧ ∀ s, handle ev s = .next (resetBlock s) := by
  obtain ⟨s, phase⟩ := p
  cases phase with
  | idle => exact ⟨.reset, by simp [Port.completes, hrst], fun _ => rfl⟩
  | busy w | responding w r => exact ⟨.resetDuring w, by simp [Port.completes, hrst], fun _ => rfl⟩

/-- At the end of a cycle in which an execution ends, its response is presented. -/
theorem Port.Executed.out {w : CommandWord} {s : State} {p : Port} (h : Port.Executed w s p) :
    p.out.cmdReady = false ∧ p.out.rspValid = true := by
  obtain ⟨t, r, -, -, rfl⟩ := h
  exact ⟨rfl, rfl⟩

/-- With no command in the block, a command presented is accepted, and its execution may end at once. -/
theorem edge_idle_accept_cases {e : Edge} (s : State) (hrst : e.pins.rst = false)
    (hvalid : e.pins.cmdValid = true) :
    (e.done = false ∧ Port.edge e ⟨s, .idle⟩ = ⟨s, .busy e.pins.cmd⟩) ∨
      (e.done = true ∧ Port.Executed e.pins.cmd s (Port.edge e ⟨s, .idle⟩)) := by
  cases hdone : e.done with
  | false => exact .inl ⟨rfl, edge_idle_accept hrst hvalid hdone⟩
  | true =>
    rw [edge_idle_accept_done hrst hvalid hdone]
    exact .inr ⟨rfl, executed_execute _ s⟩

theorem edge_idle_accept_not_ready {e : Edge} (s : State) (hrst : e.pins.rst = false)
    (hvalid : e.pins.cmdValid = true) : (Port.edge e ⟨s, .idle⟩).out.cmdReady = false := by
  obtain ⟨-, hedge⟩ | ⟨-, hexecuted⟩ := edge_idle_accept_cases s hrst hvalid
  · rw [hedge]
    rfl
  · exact hexecuted.out.1

theorem executed_edge_busy {e : Edge} (s : State) (w : CommandWord) (hrst : e.pins.rst = false)
    (hdone : e.done = true) : Port.Executed w s (Port.edge e ⟨s, .busy w⟩) := by
  rw [edge_busy_done hrst w hdone]
  exact executed_execute w s

/-- Settles O50: each clause speaks of one phase, or of the two in which a command is in the block, and is
what an edge does in it. -/
theorem portHoldsOneCommandUntilItsResponseIsDelivered :
    Obligations.PortHoldsOneCommandUntilItsResponseIsDelivered := by
  unfold Obligations.PortHoldsOneCommandUntilItsResponseIsDelivered
  rintro e ⟨s, phase⟩ hrst
  cases phase with
  | idle =>
    refine ⟨fun h => absurd h.symm Bool.false_ne_true, fun h => absurd h.symm Bool.false_ne_true,
      fun _ => edge_idle_wait hrst, fun _ hvalid => ⟨edge_idle_accept_not_ready s hrst hvalid,
        edge_idle_accept hrst hvalid, fun hdone => ?_⟩, nofun,
      fun h => absurd h Bool.false_ne_true, fun h => absurd h Bool.false_ne_true,
      fun h => absurd h.symm Bool.false_ne_true⟩
    rw [edge_idle_accept_done hrst hvalid hdone]
    exact executed_execute _ s
  | busy w =>
    refine ⟨fun _ _ => edge_busy_wait hrst w, fun _ _ => rfl, fun h => absurd h Bool.false_ne_true,
      fun h => absurd h Bool.false_ne_true, ?_, fun h => absurd h Bool.false_ne_true,
      fun h => absurd h Bool.false_ne_true, fun _ _ hdone => (executed_edge_busy s w hrst hdone).out.2⟩
    rintro w' ⟨⟩ hdone
    exact executed_edge_busy s w hrst hdone
  | responding w r =>
    refine ⟨fun _ hready _ => edge_responding_wait hrst w r hready, fun _ _ => rfl,
      fun h => absurd h Bool.false_ne_true, fun h => absurd h Bool.false_ne_true, nofun,
      fun _ hready => congrArg Port.out (edge_responding_wait hrst w r hready), fun _ hready => ?_,
      fun _ h => absurd h.symm Bool.false_ne_true⟩
    rw [edge_responding_deliver hrst w r hready]
    exact ⟨r, rfl, rfl, rfl⟩

/-! ### Refinement -/

/-- Where a port can stand when the transactions completed so far have left `s`: with no command, with one
not yet executed, or with one whose execution has ended and whose response is not delivered. -/
inductive Port.At (s : State) : Port → Prop where
  | idle : Port.At s ⟨s, .idle⟩
  | busy (w : CommandWord) : Port.At s ⟨s, .busy w⟩
  | responding (w : CommandWord) (p : Port) (h : Port.Executed w s p) : Port.At s p

/-- A state with its last response taken back and given again is that state. -/
theorem answer_taken_back (s t : State) (r : Response) (h : t.responses = s.responses ++ [r]) :
    ({ t with responses := s.responses } : State).answer r = t := by
  rw [State.answer, ← h]

theorem pending_of_runWord (w : CommandWord) (s t : State) (h : runWord w s = .next t) :
    t.pending = s.pending := by
  obtain ⟨u, hrun, hpending⟩ := handle_keeps_pending (.command w) s
  cases hrun.symm.trans h
  exact hpending

/-- A cycle of `rst` leaves the reset state, with none of what is in the block (R213). -/
theorem at_edge_of_rst (e : Edge) (p : Port) (s : State) (h : p.At s) (hrst : e.pins.rst = true) :
    runEvents (Port.completes e p).toList s = some (resetBlock s) ∧
      (Port.edge e p).At (resetBlock s) := by
  obtain ⟨ev, hcompletes, hreset⟩ := completes_of_rst e p hrst
  have hblock : resetBlock p.block = resetBlock s := by
    cases h with
    | idle | busy w => rfl
    | responding w p h =>
      obtain ⟨t, r, hrun, -, rfl⟩ := h
      rw [resetBlock, pending_of_runWord w s t hrun]
      rfl
  rw [edge_of_rst e p hrst, hblock]
  exact ⟨by simp only [hcompletes, Option.toList_some, runEvents, hreset], .idle⟩

/-- Every other cycle either completes nothing and leaves the port where it can stand, or delivers the
response of the command in the block, which completes its transaction. -/
theorem at_edge_of_not_rst (e : Edge) (p : Port) (s : State) (h : p.At s)
    (hrst : e.pins.rst = false) :
    ∃ t, runEvents (Port.completes e p).toList s = some t ∧ (Port.edge e p).At t := by
  cases h with
  | idle =>
    refine ⟨s, by rw [completes_idle hrst]; rfl, ?_⟩
    cases hvalid : e.pins.cmdValid with
    | false =>
      rw [edge_idle_wait hrst hvalid]
      exact .idle
    | true =>
      obtain ⟨-, hedge⟩ | ⟨-, hexecuted⟩ := edge_idle_accept_cases s hrst hvalid
      · rw [hedge]
        exact .busy _
      · exact .responding _ _ hexecuted
  | busy w =>
    refine ⟨s, by rw [completes_busy hrst]; rfl, ?_⟩
    cases hdone : e.done with
    | false =>
      rw [edge_busy_wait hrst w hdone]
      exact .busy w
    | true => exact .responding w _ (executed_edge_busy s w hrst hdone)
  | responding w p h =>
    obtain ⟨t, r, hrun, hresponses, rfl⟩ := id h
    cases hready : e.pins.rspReady with
    | false =>
      rw [edge_responding_wait hrst w r hready]
      exact ⟨s, by rw [completes_responding_wait hrst w r hready]; rfl, .responding w _ h⟩
    | true =>
      rw [edge_responding_deliver hrst w r hready, answer_taken_back s t r hresponses]
      refine ⟨t, ?_, .idle⟩
      simp only [completes_responding_deliver hrst w r hready, Option.toList_some, runEvents,
        handle, hrun]

/-- Over a run of cycles the port stands where the transactions it completed have led. -/
theorem at_run (es : List Edge) (p : Port) (s : State) (h : p.At s) :
    ∃ t, runEvents (Port.completed es p) s = some t ∧ (Port.run es p).At t := by
  induction es generalizing p s with
  | nil => exact ⟨s, rfl, h⟩
  | cons e es ih =>
    obtain ⟨t, hcompletes, ht⟩ : ∃ t, runEvents (Port.completes e p).toList s = some t ∧
        (Port.edge e p).At t := by
      cases hrst : e.pins.rst with
      | false => exact at_edge_of_not_rst e p s h hrst
      | true => exact ⟨_, at_edge_of_rst e p s h hrst⟩
    obtain ⟨u, hrest, hu⟩ := ih (Port.edge e p) t ht
    exact ⟨u, by rw [Port.completed, runEvents_append, hcompletes, Option.bind_some, hrest], hu⟩

theorem Port.At.block_of_idle {s : State} {p : Port} (h : p.At s) (hidle : p.phase = .idle) :
    p.block = s := by
  cases h with
  | idle => rfl
  | busy w => cases hidle
  | responding w p h =>
    obtain ⟨t, r, -, -, rfl⟩ := h
    cases hidle

/-- Settles O51: every edge keeps the port where the completed transactions lead; with no command in the
block that is their state. -/
theorem portRefinesTheTransactions : Obligations.PortRefinesTheTransactions := by
  unfold Obligations.PortRefinesTheTransactions
  rintro es ⟨s, phase⟩ rfl hend
  obtain ⟨t, hcompleted, hat⟩ := at_run es ⟨s, .idle⟩ s .idle
  rw [hat.block_of_idle hend]
  exact hcompleted

end Sys2Proof.Machine
end

section
/-! PROOFS. The telemetry macros (48_frame_macros.md R166 to R169): what a list of field reads gives on a
frame in BUF, the round trips, and the frames that are refused. -/

namespace Sys2Proof.Machine

/-- A command that answers one response in every state with these bytes in BUF, and changes nothing else. -/
def Reads (m : List Byte) (i : Instr) (r : Response) : Prop :=
  ∀ s : State, s.buf = m → exec i s = .next (s.answer r)

/-- The response of a byte read unsigned (R135). -/
def Response.ofU8 (b : Byte) : Response := ⟨b.zeroExtend 32, .noError, .none⟩

/-- The response of a byte read signed (R136). -/
def Response.ofI8 (b : Byte) : Response := ⟨b.signExtend 32, .noError, .none⟩

/-- The response of a pattern read (R137). -/
def Response.ofF32 (p : Word32) : Response := ⟨p, .noError, .none⟩

@[simp] theorem dataByte_ofU8 (b : Byte) : dataByte (.ofU8 b) = b :=
  extractLsb'_zeroExtend_low b (by decide)

@[simp] theorem dataByte_ofI8 (b : Byte) : dataByte (.ofI8 b) = b :=
  extractLsb'_signExtend_low b

@[simp] theorem data_ofF32 (p : Word32) : (Response.ofF32 p).data = p := rfl

/-- A byte of a frame, read unsigned (R135). -/
theorem reads_getU8 (m : List Byte) (o : Word16) (b : Byte) (h : Memory.byte m o.toNat = some b) :
    Reads m (.getU8 o) (.ofU8 b) :=
  fun s hs => exec_getU8_of_byte s o b (hs ▸ h)

/-- A byte of a frame, read signed (R136). -/
theorem reads_getI8 (m : List Byte) (o : Word16) (b : Byte) (h : Memory.byte m o.toNat = some b) :
    Reads m (.getI8 o) (.ofI8 b) :=
  fun s hs => exec_getI8_of_byte s o b (hs ▸ h)

/-- A pattern of a frame, read back from where its bytes stand (R137). -/
theorem reads_getF32 (m : List Byte) (o : Word16) (p : Word32)
    (h : Memory.read m o.toNat 4 = some (packF32 p)) :
    Reads m (.getF32 o) (.ofF32 p) := by
  intro s hs
  have hget := exec_getF32_of_read s o _ _ _ _ (hs ▸ h)
  rwa [packF32_bytes_append] at hget

/-- Reads issued one after another give their responses, since none of them changes BUF. -/
theorem issueAll_of_reads (m : List Byte) (is : List Instr) (rs : List Response) (s : State)
    (h : List.Forall₂ (Reads m) is rs) (hs : s.buf = m) :
    ∃ t, issueAll is s = some (t, rs) := by
  induction h generalizing s with
  | nil => exact ⟨s, rfl⟩
  | cons hread _ ih =>
    obtain ⟨t, hrest⟩ := ih (s.answer _) hs
    exact ⟨t, issueAll_cons _ _ _ _ _ _ _ (issue_of_exec _ _ _ _ (hread s hs)) hrest⟩

/-- A frame built of its fields and sealed with its trailer decodes to the message of the field reads. -/
theorem decodeAnswer_of_reads (message : List Response → TelemetryMessage) (k : Word16)
    (fields : List Instr) (rs : List Response) (body : List Byte) (s : State)
    (hfit : body.length + 2 ≤ Config.bufSize) (hk : k.toNat ≤ body.length + 2)
    (h : List.Forall₂ (Reads (body ++ pack16 (crc16 body))) fields rs) :
    ∃ t, decodeAnswer message (decodeFrame k fields (body ++ pack16 (crc16 body)) s) =
      some (t, some (message rs, .noError)) := by
  obtain ⟨t, hbuf, hdecode⟩ := decodeFrame_good k fields body s hfit hk
  obtain ⟨u, hfields⟩ := issueAll_of_reads _ fields rs t h hbuf
  exact ⟨u, by rw [hdecode u rs hfields]; rfl⟩

/-- The 32 bytes of a Telemetry v1 frame before its trailer (R167). -/
def telemetryV1Body (m : TelemetryMessage) (unnamed : Vector Byte 5) : List Byte :=
  packF32 m.depth ++ packF32 m.pitch ++ packF32 m.yaw ++ packF32 m.roll ++ packF32 m.ammeter ++
    packF32 m.voltmeter ++ [m.regulatorsFeedback, m.manipulatorAngle, m.manipulatorState] ++
    [unnamed[0], unnamed[1], unnamed[2], unnamed[3], unnamed[4]]

theorem bodyBytes_telemetryV1Puts (m : TelemetryMessage) (unnamed : Vector Byte 5) :
    bodyBytes (telemetryV1Puts m unnamed) = some (telemetryV1Body m unnamed) := by
  rw [telemetryV1Puts, vector_toList_eq_ofFn]
  rfl

theorem reads_telemetryV1 (m : TelemetryMessage) (unnamed : Vector Byte 5) (c : Word16) :
    List.Forall₂ (Reads (telemetryV1Body m unnamed ++ pack16 c)) telemetryV1Gets
      [.ofF32 m.depth, .ofF32 m.pitch, .ofF32 m.yaw, .ofF32 m.roll, .ofF32 m.ammeter,
       .ofF32 m.voltmeter, .ofU8 m.regulatorsFeedback, .ofI8 m.manipulatorAngle,
       .ofI8 m.manipulatorState] :=
  .cons (reads_getF32 _ 0 _ rfl) <| .cons (reads_getF32 _ 4 _ rfl) <|
  .cons (reads_getF32 _ 8 _ rfl) <| .cons (reads_getF32 _ 12 _ rfl) <|
  .cons (reads_getF32 _ 16 _ rfl) <| .cons (reads_getF32 _ 20 _ rfl) <|
  .cons (reads_getU8 _ 24 _ rfl) <| .cons (reads_getI8 _ 25 _ rfl) <|
  .cons (reads_getI8 _ 26 _ rfl) .nil

/-- What a Telemetry v1 frame carries of a message: the other fields keep their default (R167). -/
def TelemetryMessage.inV1 (m : TelemetryMessage) : TelemetryMessage :=
  { m with header := 0, version := 0, temperature := 0, cameraIndex := 0 }

theorem decodeTelemetryV1_of_body (m : TelemetryMessage) (unnamed : Vector Byte 5) (s : State) :
    ∃ t, decodeTelemetryV1 (telemetryV1Body m unnamed ++ pack16 (crc16 (telemetryV1Body m unnamed))) s
      = some (t, some (m.inV1, .noError)) := by
  obtain ⟨t, hdecode⟩ := decodeAnswer_of_reads telemetryV1Of 34 telemetryV1Gets _
    (telemetryV1Body m unnamed) s (le_trans (by decide : 34 ≤ 36) bufSize_range.1) le_rfl
    (reads_telemetryV1 m unnamed _)
  refine ⟨t, hdecode.trans ?_⟩
  simp only [telemetryV1Of, dataByte_ofU8, dataByte_ofI8, data_ofF32]
  rfl

/-- The 34 bytes of a Telemetry v2 frame before its trailer (R168). -/
def telemetryV2Body (m : TelemetryMessage) : List Byte :=
  [0xAE, 2] ++ packF32 m.depth ++ packF32 m.pitch ++ packF32 m.yaw ++ packF32 m.roll ++
    packF32 m.ammeter ++ packF32 m.voltmeter ++
    [m.regulatorsFeedback, m.manipulatorAngle, m.manipulatorState, m.cameraIndex] ++
    packF32 m.temperature

theorem bodyBytes_telemetryV2Puts (m : TelemetryMessage) :
    bodyBytes (telemetryV2Puts m) = some (telemetryV2Body m) := rfl

theorem reads_telemetryV2 (m : TelemetryMessage) (c : Word16) :
    List.Forall₂ (Reads (telemetryV2Body m ++ pack16 c)) telemetryV2Gets
      [.ofU8 0xAE, .ofI8 2, .ofF32 m.depth, .ofF32 m.pitch, .ofF32 m.yaw, .ofF32 m.roll,
       .ofF32 m.ammeter, .ofF32 m.voltmeter, .ofU8 m.regulatorsFeedback,
       .ofI8 m.manipulatorAngle, .ofI8 m.manipulatorState, .ofU8 m.cameraIndex,
       .ofF32 m.temperature] :=
  .cons (reads_getU8 _ 0 _ rfl) <| .cons (reads_getI8 _ 1 _ rfl) <|
  .cons (reads_getF32 _ 2 _ rfl) <| .cons (reads_getF32 _ 6 _ rfl) <|
  .cons (reads_getF32 _ 10 _ rfl) <| .cons (reads_getF32 _ 14 _ rfl) <|
  .cons (reads_getF32 _ 18 _ rfl) <| .cons (reads_getF32 _ 22 _ rfl) <|
  .cons (reads_getU8 _ 26 _ rfl) <| .cons (reads_getI8 _ 27 _ rfl) <|
  .cons (reads_getI8 _ 28 _ rfl) <| .cons (reads_getU8 _ 29 _ rfl) <|
  .cons (reads_getF32 _ 30 _ rfl) .nil

theorem decodeTelemetryV2_of_body (m : TelemetryMessage) (s : State) :
    ∃ t, decodeTelemetryV2 (telemetryV2Body m ++ pack16 (crc16 (telemetryV2Body m))) s =
      some (t, some ({ m with header := 0xAE, version := 2 }, .noError)) := by
  obtain ⟨t, hdecode⟩ := decodeAnswer_of_reads telemetryV2Of 36 telemetryV2Gets _
    (telemetryV2Body m) s bufSize_range.1 le_rfl (reads_telemetryV2 m _)
  refine ⟨t, hdecode.trans ?_⟩
  simp only [telemetryV2Of, dataByte_ofU8, dataByte_ofI8, data_ofF32]

/-! ### The frames that are refused -/

/-- A frame whose CRC is not 0 has a trailer that is not its own, and CHK answers WrongCrc. -/
theorem decodeFrame_of_residue (k : Word16) (fields : List Instr) (m : List Byte) (s : State)
    (hfit : m.length ≤ Config.bufSize) (hk : k.toNat ≤ m.length) (hlen : 2 ≤ m.length)
    (hcrc : crc16 m ≠ 0x0000#16) :
    ∃ t, decodeFrame k fields m s = some (t, some (.wrongCrc, [])) := by
  obtain ⟨n, c, rfl⟩ := exists_append_pack16 m hlen
  have hn : (n ++ pack16 c).length = n.length + 2 := List.length_append
  rw [hn] at hfit hk
  exact decodeFrame_wrongCrc k fields n c s hfit hk fun hc =>
    hcrc ((crc16_append_pack16_eq_zero_iff n c).mpr hc.symm)

/-- A short frame decodes to the default message and WrongDataSize (R166). -/
theorem decodeAnswer_short (message : List Response → TelemetryMessage) (k : Word16)
    (fields : List Instr) (m : List Byte) (s : State) (hfit : m.length ≤ Config.bufSize)
    (hshort : m.length < k.toNat) :
    ∃ t, decodeAnswer message (decodeFrame k fields m s) =
      some (t, some (TelemetryMessage.default, .wrongDataSize)) := by
  obtain ⟨t, hdecode⟩ := decodeFrame_short k fields m s hfit hshort
  exact ⟨t, by rw [hdecode]; rfl⟩

/-- A frame with a wrong trailer decodes to the default message and WrongCrc (R166). -/
theorem decodeAnswer_of_residue (message : List Response → TelemetryMessage) (k : Word16)
    (fields : List Instr) (m : List Byte) (s : State) (hfit : m.length ≤ Config.bufSize)
    (hk : k.toNat ≤ m.length) (hlen : 2 ≤ m.length) (hcrc : crc16 m ≠ 0x0000#16) :
    ∃ t, decodeAnswer message (decodeFrame k fields m s) =
      some (t, some (TelemetryMessage.default, .wrongCrc)) := by
  obtain ⟨t, hdecode⟩ := decodeFrame_of_residue k fields m s hfit hk hlen hcrc
  exact ⟨t, by rw [hdecode]; rfl⟩

/-- Settles O55: the encoder seals the body of the layout, and the reads of the decoder find each field in
it where the layout has it; the five unnamed bytes are read by none. -/
theorem telemetryV1RoundTrips : Obligations.TelemetryV1RoundTrips := by
  unfold Obligations.TelemetryV1RoundTrips
  have hencode (m : TelemetryMessage) (unnamed : Vector Byte 5) (s : State) :=
    encodeFrame_of_bodyBytes _ _ 34 s (bodyBytes_telemetryV1Puts m unnamed) rfl
      (le_trans (by decide) bufSize_range.1)
  constructor
  · intro m unnamed s u
    obtain ⟨t, hframe⟩ := hencode m unnamed s
    obtain ⟨v, hdecode⟩ := decodeTelemetryV1_of_body m unnamed u
    exact ⟨t, v, _, hframe, rfl, hdecode⟩
  · intro m s u
    obtain ⟨t, hframe⟩ := hencode m (Vector.replicate 5 0x00) s
    obtain ⟨v, hdecode⟩ := decodeTelemetryV1_of_body m (Vector.replicate 5 0x00) u
    exact ⟨t, v, _, hframe, rfl, rfl, hdecode⟩

/-- Settles O56: as O55, with the layout of version 2. -/
theorem telemetryV2RoundTrips : Obligations.TelemetryV2RoundTrips := by
  unfold Obligations.TelemetryV2RoundTrips
  intro m s u
  obtain ⟨t, hframe⟩ := encodeFrame_of_bodyBytes _ _ 36 s (bodyBytes_telemetryV2Puts m) rfl
    bufSize_range.1
  obtain ⟨v, hdecode⟩ := decodeTelemetryV2_of_body m u
  exact ⟨t, v, _, hframe, rfl, hdecode⟩

/-- Settles O57: CHK refuses a short frame by its length and a long one by the residue test. -/
theorem decodeOfABadFrameGivesTheDefaultMessage :
    Obligations.DecodeOfABadFrameGivesTheDefaultMessage := by
  unfold Obligations.DecodeOfABadFrameGivesTheDefaultMessage
  exact ⟨decodeAnswer_short telemetryV1Of 34 telemetryV1Gets,
    decodeAnswer_short telemetryV2Of 36 telemetryV2Gets,
    fun m s hfit hk => decodeAnswer_of_residue telemetryV1Of 34 telemetryV1Gets m s hfit hk
      (le_trans (by decide) hk),
    fun m s hfit hk => decodeAnswer_of_residue telemetryV2Of 36 telemetryV2Gets m s hfit hk
      (le_trans (by decide) hk)⟩

end Sys2Proof.Machine
end

section
/-! PROOFS. The assembler (30_encoding.md R69, R70): which operands it takes, and that the written form of
every command, as a line or in a text, is read back. -/

namespace Sys2Proof.Machine

/-! ### Operands and their ranges -/

theorem assemble_eq_some_iff (n : AsmName) (o : Option Int) (i : Instr) :
    assemble ⟨n, o⟩ = some i ↔ n.format.accepts o = true ∧ AsmName.command n (o.getD 0) = i := by
  have hwf : SourceLine.wellFormed ⟨n, o⟩ = n.format.accepts o := rfl
  rw [assemble, hwf]
  cases n.format.accepts o <;> simp

theorem assemble_isSome_iff (n : AsmName) (o : Option Int) :
    (∃ i, assemble ⟨n, o⟩ = some i) ↔ n.format.accepts o = true := by
  simp [assemble_eq_some_iff]

theorem accepts_some_iff (f : Format) (lo hi v : Int) (hf : f.range = some (lo, hi)) :
    f.accepts (some v) = true ↔ lo ≤ v ∧ v ≤ hi := by
  simp [Format.accepts, hf]

/-- A name with an operand is assembled exactly with one in its range (R63). -/
theorem assemble_of_range (n : AsmName) (lo hi : Int) (hn : n.format.range = some (lo, hi)) :
    assemble ⟨n, none⟩ = none ∧
      ∀ v : Int, (∃ i, assemble ⟨n, some v⟩ = some i) ↔ lo ≤ v ∧ v ≤ hi := by
  refine ⟨?_, fun v => (assemble_isSome_iff n _).trans (accepts_some_iff _ lo hi v hn)⟩
  simp [assemble, SourceLine.wellFormed, Format.accepts, hn]

/-- A name without an operand is assembled exactly without one (R62). -/
theorem assemble_of_no_range (n : AsmName) (hn : n.format.range = none) :
    (∃ i, assemble ⟨n, none⟩ = some i) ∧ ∀ v : Int, assemble ⟨n, some v⟩ = none := by
  simp [assemble, SourceLine.wellFormed, Format.accepts, hn]

/-- A number in the range of an unsigned field is the number of the field. -/
theorem toNat_ofInt_of_range (w : Nat) (v : Int) (h0 : 0 ≤ v) (h : v < 2 ^ w) :
    ((BitVec.ofInt w v).toNat : Int) = v := by
  rw [BitVec.toNat_ofInt, Int.toNat_of_nonneg (Int.emod_nonneg _ (by positivity))]
  exact Int.emod_eq_of_lt h0 (by exact_mod_cast h)

theorem number_statusRegOf (n : BitVec 2) : (statusRegOf n).number = n.toNat := by
  revert n
  decide

/-- What is assembled for a mnemonic is written as the line it was assembled from. -/
theorem line_command (m : Mnemonic) (o : Option Int) (h : m.format.accepts o = true) :
    (AsmName.command (.core m) (o.getD 0)).line = ⟨.core m, o⟩ := by
  have hline {v w : Int} (hvw : v = w) : SourceLine.mk (.core m) (some v) = ⟨.core m, some w⟩ := by
    rw [hvw]
  cases o with
  | none =>
    cases m with
    | crcInit | putCrc | clr => rfl
    | _ => cases h
  | some v =>
    cases m with
    | crcInit | putCrc | clr => cases h
    | crcUpd | putU8 =>
      obtain ⟨h0, hv⟩ := (accepts_some_iff .B 0 255 v rfl).mp h
      exact hline (toNat_ofInt_of_range 8 v h0 (by omega))
    | putI8 =>
      obtain ⟨h0, hv⟩ := (accepts_some_iff .S (-128) 127 v rfl).mp h
      exact hline (BitVec.toInt_ofInt_eq_self (n := v) (by decide) (by omega) (by omega))
    | putF32 =>
      obtain ⟨h0, hv⟩ := (accepts_some_iff .W 0 4294967295 v rfl).mp h
      exact hline (toNat_ofInt_of_range 32 v h0 (by omega))
    | getU8 | getI8 | getF32 | chk =>
      obtain ⟨h0, hv⟩ := (accepts_some_iff .O 0 65535 v rfl).mp h
      exact hline (toNat_ofInt_of_range 16 v h0 (by omega))
    | rdSr =>
      obtain ⟨h0, hv⟩ := (accepts_some_iff .R 0 3 v rfl).mp h
      refine hline ?_
      rw [number_statusRegOf]
      exact toNat_ofInt_of_range 2 v h0 (by omega)

theorem line_name (i : Instr) : i.line.name = .core i.mnemonic := by
  cases i <;> rfl

theorem ofInt_toNat {w : Nat} (b : BitVec w) : BitVec.ofInt w (b.toNat : Int) = b := by
  rw [BitVec.ofInt_natCast, BitVec.ofNat_toNat, BitVec.setWidth_eq]

/-- The command of the written form is the command. -/
theorem command_line (i : Instr) : AsmName.command i.line.name (i.line.operand.getD 0) = i := by
  cases i with
  | crcInit | putCrc | clr => rfl
  | crcUpd b | putU8 b | putF32 b | getU8 b | getI8 b | getF32 b | chk b =>
    exact congrArg _ (ofInt_toNat b)
  | putI8 b => exact congrArg _ BitVec.ofInt_toInt
  | rdSr r => cases r <;> rfl

theorem assemble_line (i : Instr) : assemble i.line = some i :=
  (assemble_eq_some_iff _ _ i).mpr ⟨wellFormed_instr i, command_line i⟩

/-- Settles O37: a name takes the operands its format's range holds, and what is assembled from a line is
written as that line. -/
theorem assemblerTakesExactlyOperandsInRange :
    Obligations.AssemblerTakesExactlyOperandsInRange := by
  unfold Obligations.AssemblerTakesExactlyOperandsInRange
  have hB : ∀ n ∈ [AsmName.core .crcUpd, .core .putU8, .load],
      n.format.range = some (0, 255) := by decide
  have hO : ∀ n ∈ [AsmName.core .getU8, .core .getI8, .core .getF32, .core .chk],
      n.format.range = some (0, 65535) := by decide
  have hN : ∀ n ∈ [AsmName.core .crcInit, .core .putCrc, .core .clr, .crcRd, .lenRd, .statusRd,
      .capRd], n.format.range = none := by decide
  refine ⟨fun n hn => assemble_of_range n 0 255 (hB n hn), assemble_of_range _ (-128) 127 rfl,
    assemble_of_range _ 0 4294967295 rfl, fun n hn => assemble_of_range n 0 65535 (hO n hn),
    assemble_of_range _ 0 3 rfl, fun n hn => assemble_of_no_range n (hN n hn), ?mnemonic,
    ⟨rfl, rfl, rfl, rfl, fun _ => rfl⟩, assemble_line, fun _ i _ => ⟨i, decode_encode i⟩⟩
  case mnemonic =>
    intro m o i h
    obtain ⟨haccepts, rfl⟩ := (assemble_eq_some_iff _ _ _).mp h
    have hline := line_command m o haccepts
    have hname := (line_name _).symm.trans (congrArg SourceLine.name hline)
    exact ⟨AsmName.core.inj hname, congrArg SourceLine.operand hline⟩

/-! ### The written form -/

/-- Plain letters begin with no `0x` and no `-`, so they are read as a decimal number, signed or not. -/
theorem unsignedOf_of_plain (cs : List Char) (h : cs.all plain = true) :
    unsignedOf cs = numberOf 10 cs := by
  unfold unsignedOf
  split
  · simp [plain] at h
  · rfl

theorem signedOf_of_plain (cs : List Char) (h : cs.all plain = true) :
    signedOf cs = numberOf 10 cs := by
  unfold signedOf
  split
  · simp [plain] at h
  · rfl

theorem signedDecimal_of_nonneg (v : Int) (h : 0 ≤ v) : signedDecimal v = decimal 4 v.natAbs :=
  if_neg (Int.not_lt.mpr h)

theorem unsignedOf_signedDecimal (v : Int) (h0 : 0 ≤ v) (h : v < 100000) :
    unsignedOf (signedDecimal v) = some v := by
  rw [signedDecimal_of_nonneg v h0, unsignedOf_of_plain _ (plain_decimal 4 _),
    numberOf_decimal 4 _ (by omega), Int.natAbs_of_nonneg h0]

theorem signedOf_signedDecimal (v : Int) (hlo : -100000 < v) (hhi : v < 100000) :
    signedOf (signedDecimal v) = some v := by
  obtain hneg | h0 := lt_or_ge v 0
  · have hnumber := numberOf_decimal 4 v.natAbs (by omega)
    rw [signedDecimal, if_pos hneg]
    simp only [signedOf, hnumber, Option.map_some]
    congr 1
    omega
  · rw [signedDecimal_of_nonneg v h0, signedOf_of_plain _ (plain_decimal 4 _),
      numberOf_decimal 4 _ (by omega), Int.natAbs_of_nonneg h0]

theorem patternOf_hexDigits (v : Int) (h0 : 0 ≤ v) (h : v ≤ 4294967295) :
    patternOf ('0' :: 'x' :: hexDigits 8 v.natAbs) = some v := by
  rw [patternOf, if_pos (hexDigits_length 8 _), numberOf_hexDigits 7 _ (by omega),
    Int.natAbs_of_nonneg h0]

/-- An operand in its range is read as it is written (R69). -/
theorem operandOf_operandText (f : Format) (v : Int) (h : f.accepts (some v) = true) :
    operandOf f (Format.operandText f v) = some v := by
  cases f with
  | N => cases h
  | B =>
    obtain ⟨h0, hv⟩ := (accepts_some_iff .B 0 255 v rfl).mp h
    exact unsignedOf_signedDecimal v h0 (by omega)
  | S =>
    obtain ⟨h0, hv⟩ := (accepts_some_iff .S (-128) 127 v rfl).mp h
    exact signedOf_signedDecimal v (by omega) (by omega)
  | W =>
    obtain ⟨h0, hv⟩ := (accepts_some_iff .W 0 4294967295 v rfl).mp h
    exact patternOf_hexDigits v h0 hv
  | O =>
    obtain ⟨h0, hv⟩ := (accepts_some_iff .O 0 65535 v rfl).mp h
    exact unsignedOf_signedDecimal v h0 (by omega)
  | R =>
    obtain ⟨h0, hv⟩ := (accepts_some_iff .R 0 3 v rfl).mp h
    exact unsignedOf_signedDecimal v h0 (by omega)

/-- A letter that ends neither a word, nor a command, nor a line. -/
structure WordLetter (c : Char) : Prop where
  ne_space : c ≠ ' '
  ne_comment : c ≠ ';'
  ne_end : c ≠ '\n'

theorem wordLetter_of_plain (cs : List Char) (h : cs.all plain = true) :
    ∀ c ∈ cs, WordLetter c := by
  intro c hc
  have hplain := List.all_eq_true.mp h c hc
  simp only [plain, Bool.and_eq_true, bne_iff_ne] at hplain
  obtain ⟨⟨⟨⟨hspace, hcomment⟩, hend⟩, -⟩, -⟩ := hplain
  exact ⟨hspace, hcomment, hend⟩

theorem signedDecimal_word (v : Int) :
    signedDecimal v ≠ [] ∧ ∀ c ∈ signedDecimal v, WordLetter c := by
  have hdecimal := wordLetter_of_plain _ (plain_decimal 4 v.natAbs)
  have hminus : WordLetter '-' := ⟨by decide, by decide, by decide⟩
  unfold signedDecimal
  split
  · exact ⟨nofun, List.forall_mem_cons.mpr ⟨hminus, hdecimal⟩⟩
  · exact ⟨decimal_ne_nil 4 _, hdecimal⟩

/-- The written form of an operand is one word of a line. -/
theorem operandText_word (f : Format) (v : Int) :
    Format.operandText f v ≠ [] ∧ ∀ c ∈ Format.operandText f v, WordLetter c := by
  cases f with
  | W =>
    have hdigits := wordLetter_of_plain _ (plain_hexDigits 8 v.natAbs)
    have hzero : WordLetter '0' := ⟨by decide, by decide, by decide⟩
    have hx : WordLetter 'x' := ⟨by decide, by decide, by decide⟩
    exact ⟨nofun, List.forall_mem_cons.mpr ⟨hzero, List.forall_mem_cons.mpr ⟨hx, hdigits⟩⟩⟩
  | N | B | S | O | R => exact signedDecimal_word v

theorem toList_written (i : Instr) : (written i).toList = writtenLetters i := by
  simp [written]

theorem line_eq (i : Instr) : i.line = ⟨.core i.mnemonic, i.line.operand⟩ := by
  rw [← line_name]

theorem ofOption_eq_command_iff (o : Option Instr) (i : Instr) :
    AsmLine.ofOption o = .command i ↔ o = some i := by
  cases o <;> simp [AsmLine.ofOption]

/-- The written form of every command stands for that command. -/
theorem assembleLine_written (i : Instr) : assembleLine (written i).toList = .command i := by
  have hassemble := assemble_line i
  have hwf : i.mnemonic.format.accepts i.line.operand = true := by
    have h := wellFormed_instr i
    rw [Instr.wellFormed, line_eq] at h
    exact h
  rw [line_eq] at hassemble
  rw [toList_written, writtenLetters]
  cases ho : i.line.operand with
  | none =>
    rw [ho] at hassemble
    exact (assembleLine_name (.core i.mnemonic)).trans ((ofOption_eq_command_iff _ i).mpr hassemble)
  | some v =>
    rw [ho] at hassemble hwf
    obtain ⟨hne, hletters⟩ := operandText_word i.mnemonic.format v
    refine (assembleLine_operand (.core i.mnemonic) _ hne fun c hc =>
      ⟨(hletters c hc).ne_space, (hletters c hc).ne_comment⟩).trans ((ofOption_eq_command_iff _ i).mpr ?_)
    exact Option.bind_eq_some_iff.mpr ⟨v, operandOf_operandText _ v hwf, hassemble⟩

/-- A name is written on one line. -/
theorem name_letters (m : Mnemonic) : ∀ c ∈ (Mnemonic.text m).toList, c ≠ '\n' := by
  intro c hc
  obtain ⟨-, hletters⟩ := AsmName.text_letters (.core m)
  obtain ⟨-, -, hend⟩ := hletters c hc
  exact hend

/-- A written command stands on one line. -/
theorem written_letters (i : Instr) : ∀ c ∈ (written i).toList, c ≠ '\n' := by
  have hname := name_letters i.mnemonic
  rw [toList_written, writtenLetters]
  cases i.line.operand with
  | none => exact hname
  | some v =>
    obtain ⟨-, hoperand⟩ := operandText_word i.mnemonic.format v
    exact List.forall_mem_append.mpr ⟨hname, List.forall_mem_cons.mpr
      ⟨by decide, fun c hc => (hoperand c hc).ne_end⟩⟩

theorem takeWhile_comment (line comment : List Char) :
    (line ++ ';' :: comment).takeWhile (· != ';') = line.takeWhile (· != ';') := by
  induction line with
  | nil => rfl
  | cons c line ih => simp only [List.cons_append, List.takeWhile_cons, ih]

/-- Lines each ended by an end of line, and the empty line after the last of them. -/
theorem linesFrom_flatMap (is : List Instr) :
    linesFrom [] (is.flatMap fun i => (written i).toList ++ ['\n']) =
      is.map (fun i => (written i).toList) ++ [[]] := by
  induction is with
  | nil => rfl
  | cons i is ih =>
    rw [List.flatMap_cons, List.append_assoc, linesFrom_letters _ _ _ (written_letters i)]
    simp [linesFrom, ih]

theorem commandsOf_written (is : List Instr) :
    commandsOf (is.map (fun i => (written i).toList) ++ [[]]) = some is := by
  induction is with
  | nil => rfl
  | cons i is ih => simp [commandsOf, assembleLine_written, ih]

/-- Settles O38: each printer is undone by its reader, and the letters it prints end neither the word, nor
the command, nor the line. -/
theorem writtenCommandsAreReadBack : Obligations.WrittenCommandsAreReadBack := by
  unfold Obligations.WrittenCommandsAreReadBack
  refine ⟨assembleLine_written, fun line comment => ?comment, ?operand, fun is => ?text,
    fun i => ?encoding⟩
  case comment => rw [assembleLine, takeWhile_comment, assembleLine]
  case operand =>
    intro n _ operand hne hletters
    rw [assembleLine_operand n operand hne hletters]
    simp only [ofOption_eq_command_iff, Option.bind_eq_some_iff]
    rw [exists_comm]
    simp only [exists_and_left, assemble_isSome_iff]
  case text => rw [assembleText, String.toList_ofList, linesFrom_flatMap, commandsOf_written]
  case encoding =>
    rw [encodingText, String.toList_ofList]
    exact ⟨hexDigits_length 10 _, numberOf_hexDigits 9 _ (encode i).isLt⟩

end Sys2Proof.Machine
end
